-- ==== Sys2Proof/Word.lean ====
section
/-! DEFINITION. The word types of the NM711 MIPS I core: the byte, the 32-bit word, the 64-bit product
(spec/00_scope.md R8, R17; spec/45_muldiv.md R320). Their arithmetic is that of BitVec: `+`, `-` and `*` are modulo 2^32,
`toNat` is the spec's `unsigned`, `toInt` its `signed`, `BitVec.ofInt 32` its `word` (R17). -/

namespace Sys2Proof

/-- One byte of memory (R8: the addressable unit is the byte). -/
abbrev Byte := BitVec 8

/-- A register, an address, an instruction word (R8, R17). -/
abbrev Word := BitVec 32

/-- A product of two words (R320). -/
abbrev DWord := BitVec 64

end Sys2Proof
end

