-- ==== Sys2Proof/Syntax.lean ====
section
/-! DEFINITION. The 46 instructions (spec/00_scope.md R3, spec/30_encoding.md R127, R131), one constructor per row of
spec/opcode_table.json, with the fields that R127 says the instruction reads. Operands stand in the order of the
assembler forms of R151. -/

namespace Sys2Proof

/-- A register number, 0 to 31 (R41, R142; log 13). -/
abbrev RegIdx := Fin 32

/-- The field imm16 (R121). -/
abbrev Imm16 := BitVec 16

/-- The field shamt (R121). -/
abbrev Shamt := BitVec 5

/-- The field target26 (R121). -/
abbrev Target26 := BitVec 26

inductive Instr where
  -- control transfer (41_control.md)
  | j (target : Target26)
  | jal (target : Target26)
  | jr (rs : RegIdx)
  | jalr (rd rs : RegIdx)
  | beq (rs rt : RegIdx) (off : Imm16)
  | bne (rs rt : RegIdx) (off : Imm16)
  | blez (rs : RegIdx) (off : Imm16)
  | bgtz (rs : RegIdx) (off : Imm16)
  -- loads and stores (42_loadstore.md)
  | lb (rt rs : RegIdx) (imm : Imm16)
  | lbu (rt rs : RegIdx) (imm : Imm16)
  | lh (rt rs : RegIdx) (imm : Imm16)
  | lhu (rt rs : RegIdx) (imm : Imm16)
  | lw (rt rs : RegIdx) (imm : Imm16)
  | lui (rt : RegIdx) (imm : Imm16)
  | sb (rt rs : RegIdx) (imm : Imm16)
  | sh (rt rs : RegIdx) (imm : Imm16)
  | sw (rt rs : RegIdx) (imm : Imm16)
  -- immediate arithmetic and logic (43_immediate.md)
  | addi (rt rs : RegIdx) (imm : Imm16)
  | addiu (rt rs : RegIdx) (imm : Imm16)
  | ori (rt rs : RegIdx) (imm : Imm16)
  | xori (rt rs : RegIdx) (imm : Imm16)
  -- shifts, arithmetic, logic, comparisons (44_alu.md)
  | sll (rd rt : RegIdx) (shamt : Shamt)
  | srl (rd rt : RegIdx) (shamt : Shamt)
  | sra (rd rt : RegIdx) (shamt : Shamt)
  | sllv (rd rt rs : RegIdx)
  | srlv (rd rt rs : RegIdx)
  | srav (rd rt rs : RegIdx)
  | add (rd rs rt : RegIdx)
  | addu (rd rs rt : RegIdx)
  | sub (rd rs rt : RegIdx)
  | subu (rd rs rt : RegIdx)
  | and (rd rs rt : RegIdx)
  | or (rd rs rt : RegIdx)
  | xor (rd rs rt : RegIdx)
  | nor (rd rs rt : RegIdx)
  | slt (rd rs rt : RegIdx)
  | sltu (rd rs rt : RegIdx)
  -- multiply, divide, HI and LO (45_muldiv.md)
  | mult (rs rt : RegIdx)
  | multu (rs rt : RegIdx)
  | div (rs rt : RegIdx)
  | divu (rs rt : RegIdx)
  | mfhi (rd : RegIdx)
  | mflo (rd : RegIdx)
  | mthi (rs : RegIdx)
  | mtlo (rs : RegIdx)
  -- system (46_system.md); `code` is bits 25:6, which only the halt record shows (log 12)
  | syscall (code : BitVec 20)
deriving DecidableEq, Repr

end Sys2Proof
end

