-- ==== Sys2Proof/Machine/Arch.lean ====
section
/-! DEFINITION. The types of what the core shares with the injected syscall handler: memory, the architectural state that the
core hands over (spec/00_scope.md R12), the outcomes that the handler answers (spec/46_system.md R340). -/

namespace Sys2Proof.Machine

/-- MEM and MEM_SIZE (spec/10_state.md R54): the size, and the bytes below it that are not `Memory.unlisted`, addresses rising
(log 5). -/
structure Memory where
  size : Nat
  cells : List Host.Cell
deriving DecidableEq, Repr

/-- "The complete architectural state: R[0..31], HI, LO, PC and MEM" (R12). -/
structure ArchState where
  regs : Vector Word 32
  hi : Word
  lo : Word
  pc : Word
  mem : Memory
deriving DecidableEq, Repr

/-- One change that the handler makes (R340; log 7). -/
inductive HandlerEdit where
  | reg (i : RegIdx) (v : Word)
  | hi (v : Word)
  | lo (v : Word)
  | pc (v : Word)
  | byte (a : Word) (b : Byte)
deriving DecidableEq, Repr

/-- One outcome of the handler (R12, R340): s1 is the state after the edits of s0. -/
inductive HandlerOutcome where
  /-- `Continue(s1)`. -/
  | continueWith (edits : List HandlerEdit)
  /-- `Terminate(s1)`. -/
  | terminateWith (edits : List HandlerEdit)
deriving DecidableEq, Repr

/-- The value of the parameter SYSCALL, a relation from states to outcomes (spec/00_scope.md R9; log 6). -/
inductive SyscallHandler where
  /-- The relation with the same outcomes, as edits, at every state: a handler that can be written down. -/
  | constant (outcomes : List HandlerOutcome)
  /-- An external relation of which nothing is known: `Config.syscall`. -/
  | injected
deriving DecidableEq, Repr

end Sys2Proof.Machine
end

