-- ==== Sys2Proof/Config.lean ====
section
/-! DEFINITION. What is fixed for a machine, and the free values of its steps (spec/00_scope.md R9, R21). -/

namespace Sys2Proof

/-- The parameter SLTU_FUNCT: 0x29 or 0x2B (R9). -/
inductive SltuFunct where
  | f29
  | f2B
deriving DecidableEq, Repr

/-- The default of SLTU_FUNCT is 0x29 (R9, R130). Held in State; see log 10. -/
def Config.sltuFunct : SltuFunct := .f29

/-- DESIGN CHOICE (log 3): the entry pc of `State.reset`. The spec leaves ENTRY_PC to the caller (R9, R450). -/
def Config.entryPc : Word := 0#32

/-- `draw32()`: the k-th value that steps take as a free input, under no law (R21, R328; log 11). It has no body. -/
opaque Config.draw32 : Nat → Word

/-- The default handler: `SYSCALL(s) = {Continue(s)}` (spec/46_system.md R340). Held in State; see log 6. -/
def Config.handler : Machine.SyscallHandler := .constant [.continueWith []]

/-- An injected handler (R9, R12): the outcomes that it answers to the architectural state it is given. It has no body: what is
proved of it holds for every relation (log 6). -/
opaque Config.syscall : Machine.ArchState → List Machine.HandlerOutcome

/-- `choose H in SYSCALL(s0)` (R340): the k-th choice among several outcomes, a free input of the step (log 18). It has no body. -/
opaque Config.chooseOutcome : Nat → Nat

end Sys2Proof
end

