-- ==== Sys2Proof/WellFormed.lean ====
section
/-! DEFINITION. What makes an instruction and an image well formed. -/

namespace Sys2Proof

/-- Every instruction is well formed: a register number is a Fin 32, the other fields have the widths of R121, and there is
no reserved combination of fields (spec/30_encoding.md R141, R142). There is thus no check here that could fail. -/
def Instr.wellFormed (_ : Instr) : Bool := true

/-- The longest image, 2^32-1 bytes (spec/00_scope.md R9; spec/10_state.md R54). -/
def maxImageLength : Nat := 4294967295

/-- The premise of `load`: length(IMAGE) ≤ 2^32-1 (R9, R406, R451; log 17). -/
def imageWellFormed (image : List Byte) : Bool := decide (image.length ≤ maxImageLength)

end Sys2Proof
end

