-- ==== Sys2Proof/Decode.lean ====
section
/-! DEFINITION. The decoder, total on all words and on all byte lists, and the encoder
(spec/30_encoding.md R120 to R131, R140 to R142). -/

namespace Sys2Proof

/-! ### Byte order (spec/20_memory.md R84): the lowest address holds the most significant byte -/

/-- Two bytes in the order of their addresses, as a halfword (R81). -/
def beHalf (b0 b1 : Byte) : BitVec 16 := b0 ++ b1

/-- Four bytes in the order of their addresses, as a word (R81). -/
def beWord (b0 b1 b2 b3 : Byte) : Word := b0 ++ b1 ++ b2 ++ b3

/-- The four bytes of a word in the order of their addresses (R83). -/
def wordBytes (w : Word) : List Byte :=
  [w.extractLsb' 24 8, w.extractLsb' 16 8, w.extractLsb' 8 8, w.extractLsb' 0 8]

/-! ### The eight fields of R121 -/

/-- `op = w[31:26]`. -/
def opField (w : Word) : BitVec 6 := w.extractLsb' 26 6

/-- `rs = w[25:21]`. -/
def rsField (w : Word) : RegIdx := (w.extractLsb' 21 5).toFin

/-- `rt = w[20:16]`. -/
def rtField (w : Word) : RegIdx := (w.extractLsb' 16 5).toFin

/-- `rd = w[15:11]`. -/
def rdField (w : Word) : RegIdx := (w.extractLsb' 11 5).toFin

/-- `shamt = w[10:6]`. -/
def shamtField (w : Word) : Shamt := w.extractLsb' 6 5

/-- `funct = w[5:0]`. -/
def functField (w : Word) : BitVec 6 := w.extractLsb' 0 6

/-- `imm16 = w[15:0]`. -/
def imm16Field (w : Word) : Imm16 := w.extractLsb' 0 16

/-- `target26 = w[25:0]`. -/
def target26Field (w : Word) : Target26 := w.extractLsb' 0 26

/-- Bits 25:6 of a `syscall` word (R340). -/
def codeField (w : Word) : BitVec 20 := w.extractLsb' 6 20

/-! ### The decoder -/

/-- The funct that selects `sltu` (R9, R130). -/
def SltuFunct.code : SltuFunct → BitVec 6
  | .f29 => 0x29#6
  | .f2B => 0x2B#6

/-- Why the decoder refuses: a dash of the opcode map (R129), a dash of the SPECIAL map (R130), or fewer than four bytes. -/
inductive DecodeReject where
  | unknownOpcode (op : BitVec 6)
  | unknownFunct (funct : BitVec 6)
  | truncated
deriving DecidableEq, Repr

/-- The SPECIAL map of R130, on funct. -/
def decodeSpecial (f : SltuFunct) (w : Word) : Except DecodeReject Instr :=
  match functField w with
  | 0x00#6 => .ok (.sll (rdField w) (rtField w) (shamtField w))
  | 0x02#6 => .ok (.srl (rdField w) (rtField w) (shamtField w))
  | 0x03#6 => .ok (.sra (rdField w) (rtField w) (shamtField w))
  | 0x04#6 => .ok (.sllv (rdField w) (rtField w) (rsField w))
  | 0x06#6 => .ok (.srlv (rdField w) (rtField w) (rsField w))
  | 0x07#6 => .ok (.srav (rdField w) (rtField w) (rsField w))
  | 0x08#6 => .ok (.jr (rsField w))
  | 0x09#6 => .ok (.jalr (rdField w) (rsField w))
  | 0x0C#6 => .ok (.syscall (codeField w))
  | 0x10#6 => .ok (.mfhi (rdField w))
  | 0x11#6 => .ok (.mthi (rsField w))
  | 0x12#6 => .ok (.mflo (rdField w))
  | 0x13#6 => .ok (.mtlo (rsField w))
  | 0x18#6 => .ok (.mult (rsField w) (rtField w))
  | 0x19#6 => .ok (.multu (rsField w) (rtField w))
  | 0x1A#6 => .ok (.div (rsField w) (rtField w))
  | 0x1B#6 => .ok (.divu (rsField w) (rtField w))
  | 0x20#6 => .ok (.add (rdField w) (rsField w) (rtField w))
  | 0x21#6 => .ok (.addu (rdField w) (rsField w) (rtField w))
  | 0x22#6 => .ok (.sub (rdField w) (rsField w) (rtField w))
  | 0x23#6 => .ok (.subu (rdField w) (rsField w) (rtField w))
  | 0x24#6 => .ok (.and (rdField w) (rsField w) (rtField w))
  | 0x25#6 => .ok (.or (rdField w) (rsField w) (rtField w))
  | 0x26#6 => .ok (.xor (rdField w) (rsField w) (rtField w))
  | 0x27#6 => .ok (.nor (rdField w) (rsField w) (rtField w))
  | 0x2A#6 => .ok (.slt (rdField w) (rsField w) (rtField w))
  | funct => if funct = f.code then .ok (.sltu (rdField w) (rsField w) (rtField w)) else .error (.unknownFunct funct)

/-- The primary opcode map of R129, on op, and the whole decode function of R131. -/
def decode (f : SltuFunct) (w : Word) : Except DecodeReject Instr :=
  match opField w with
  | 0x00#6 => decodeSpecial f w
  | 0x02#6 => .ok (.j (target26Field w))
  | 0x03#6 => .ok (.jal (target26Field w))
  | 0x04#6 => .ok (.beq (rsField w) (rtField w) (imm16Field w))
  | 0x05#6 => .ok (.bne (rsField w) (rtField w) (imm16Field w))
  | 0x06#6 => .ok (.blez (rsField w) (imm16Field w))
  | 0x07#6 => .ok (.bgtz (rsField w) (imm16Field w))
  | 0x08#6 => .ok (.addi (rtField w) (rsField w) (imm16Field w))
  | 0x09#6 => .ok (.addiu (rtField w) (rsField w) (imm16Field w))
  | 0x0D#6 => .ok (.ori (rtField w) (rsField w) (imm16Field w))
  | 0x0E#6 => .ok (.xori (rtField w) (rsField w) (imm16Field w))
  | 0x0F#6 => .ok (.lui (rtField w) (imm16Field w))
  | 0x20#6 => .ok (.lb (rtField w) (rsField w) (imm16Field w))
  | 0x21#6 => .ok (.lh (rtField w) (rsField w) (imm16Field w))
  | 0x23#6 => .ok (.lw (rtField w) (rsField w) (imm16Field w))
  | 0x24#6 => .ok (.lbu (rtField w) (rsField w) (imm16Field w))
  | 0x25#6 => .ok (.lhu (rtField w) (rsField w) (imm16Field w))
  | 0x28#6 => .ok (.sb (rtField w) (rsField w) (imm16Field w))
  | 0x29#6 => .ok (.sh (rtField w) (rsField w) (imm16Field w))
  | 0x2B#6 => .ok (.sw (rtField w) (rsField w) (imm16Field w))
  | op => .error (.unknownOpcode op)

/-- The decoder on bytes in the order of their addresses: the instruction and the bytes after it (R120). -/
def decodeBytes (f : SltuFunct) : List Byte → Except DecodeReject (Instr × List Byte)
  | b0 :: b1 :: b2 :: b3 :: rest =>
    match decode f (beWord b0 b1 b2 b3) with
    | .ok i => .ok (i, rest)
    | .error r => .error r
  | _ => .error .truncated

/-- The instruction of an opcode-table word (bit 0 the least significant), laid out big-endian and decoded, with the table's
SLTU_FUNCT = 0x29. -/
def decodeTableWord (nbits w : Nat) : Option Instr :=
  match decodeBytes .f29 (wordBytes (BitVec.ofNat 32 (w % 2 ^ nbits))) with
  | .ok (i, _) => some i
  | .error _ => none

/-! ### The encoder, from the formats of R122 to R124 and the maps of R129 and R130. Ignored fields (R127) are zero. -/

/-- The five bits of a register number. -/
def regBits (r : RegIdx) : BitVec 5 := BitVec.ofFin r

/-- R-type: op = 0, rs, rt, rd, shamt, funct (R122). -/
def rWord (rs rt rd : RegIdx) (shamt : Shamt) (funct : BitVec 6) : Word :=
  0#6 ++ regBits rs ++ regBits rt ++ regBits rd ++ shamt ++ funct

/-- I-type: op, rs, rt, imm16 (R123). -/
def iWord (op : BitVec 6) (rs rt : RegIdx) (imm : Imm16) : Word := op ++ regBits rs ++ regBits rt ++ imm

/-- J-type: op, target26 (R124). -/
def jWord (op : BitVec 6) (target : Target26) : Word := op ++ target

/-- The word of a `syscall`: op = 0, bits 25:6, funct = 0x0C (R340). -/
def syscallWord (code : BitVec 20) : Word := 0#6 ++ code ++ 0x0C#6

/-- The word of an instruction. -/
def encode (f : SltuFunct) : Instr → Word
  | .j target => jWord 0x02#6 target
  | .jal target => jWord 0x03#6 target
  | .jr rs => rWord rs 0 0 0#5 0x08#6
  | .jalr rd rs => rWord rs 0 rd 0#5 0x09#6
  | .beq rs rt off => iWord 0x04#6 rs rt off
  | .bne rs rt off => iWord 0x05#6 rs rt off
  | .blez rs off => iWord 0x06#6 rs 0 off
  | .bgtz rs off => iWord 0x07#6 rs 0 off
  | .lb rt rs imm => iWord 0x20#6 rs rt imm
  | .lbu rt rs imm => iWord 0x24#6 rs rt imm
  | .lh rt rs imm => iWord 0x21#6 rs rt imm
  | .lhu rt rs imm => iWord 0x25#6 rs rt imm
  | .lw rt rs imm => iWord 0x23#6 rs rt imm
  | .lui rt imm => iWord 0x0F#6 0 rt imm
  | .sb rt rs imm => iWord 0x28#6 rs rt imm
  | .sh rt rs imm => iWord 0x29#6 rs rt imm
  | .sw rt rs imm => iWord 0x2B#6 rs rt imm
  | .addi rt rs imm => iWord 0x08#6 rs rt imm
  | .addiu rt rs imm => iWord 0x09#6 rs rt imm
  | .ori rt rs imm => iWord 0x0D#6 rs rt imm
  | .xori rt rs imm => iWord 0x0E#6 rs rt imm
  | .sll rd rt shamt => rWord 0 rt rd shamt 0x00#6
  | .srl rd rt shamt => rWord 0 rt rd shamt 0x02#6
  | .sra rd rt shamt => rWord 0 rt rd shamt 0x03#6
  | .sllv rd rt rs => rWord rs rt rd 0#5 0x04#6
  | .srlv rd rt rs => rWord rs rt rd 0#5 0x06#6
  | .srav rd rt rs => rWord rs rt rd 0#5 0x07#6
  | .add rd rs rt => rWord rs rt rd 0#5 0x20#6
  | .addu rd rs rt => rWord rs rt rd 0#5 0x21#6
  | .sub rd rs rt => rWord rs rt rd 0#5 0x22#6
  | .subu rd rs rt => rWord rs rt rd 0#5 0x23#6
  | .and rd rs rt => rWord rs rt rd 0#5 0x24#6
  | .or rd rs rt => rWord rs rt rd 0#5 0x25#6
  | .xor rd rs rt => rWord rs rt rd 0#5 0x26#6
  | .nor rd rs rt => rWord rs rt rd 0#5 0x27#6
  | .slt rd rs rt => rWord rs rt rd 0#5 0x2A#6
  | .sltu rd rs rt => rWord rs rt rd 0#5 f.code
  | .mult rs rt => rWord rs rt 0 0#5 0x18#6
  | .multu rs rt => rWord rs rt 0 0#5 0x19#6
  | .div rs rt => rWord rs rt 0 0#5 0x1A#6
  | .divu rs rt => rWord rs rt 0 0#5 0x1B#6
  | .mfhi rd => rWord 0 0 rd 0#5 0x10#6
  | .mflo rd => rWord 0 0 rd 0#5 0x12#6
  | .mthi rs => rWord rs 0 0 0#5 0x11#6
  | .mtlo rs => rWord rs 0 0 0#5 0x13#6
  | .syscall code => syscallWord code

/-- The bits of an instruction's word that decoding ignores (R127). Those of `syscall` are carried in its constructor, so
none is dropped there (log 12). -/
def ignoredMask : Instr → Word
  | .sll _ _ _ | .srl _ _ _ | .sra _ _ _ | .lui _ _ => 0x03E00000#32
  | .sllv _ _ _ | .srlv _ _ _ | .srav _ _ _ => 0x000007C0#32
  | .add _ _ _ | .addu _ _ _ | .sub _ _ _ | .subu _ _ _ | .and _ _ _ | .or _ _ _ => 0x000007C0#32
  | .xor _ _ _ | .nor _ _ _ | .slt _ _ _ | .sltu _ _ _ => 0x000007C0#32
  | .jr _ | .mthi _ | .mtlo _ => 0x001FFFC0#32
  | .jalr _ _ => 0x001F07C0#32
  | .mfhi _ | .mflo _ => 0x03FF07C0#32
  | .mult _ _ | .multu _ _ | .div _ _ | .divu _ _ => 0x0000FFC0#32
  | .blez _ _ | .bgtz _ _ => 0x001F0000#32
  | .j _ | .jal _ | .beq _ _ _ | .bne _ _ _ | .syscall _ => 0#32
  | .lb _ _ _ | .lbu _ _ _ | .lh _ _ _ | .lhu _ _ _ | .lw _ _ _ | .sb _ _ _ | .sh _ _ _ | .sw _ _ _ => 0#32
  | .addi _ _ _ | .addiu _ _ _ | .ori _ _ _ | .xori _ _ _ => 0#32

end Sys2Proof
end

