-- ==== Sys2Proof/Machine/State.lean ====
section
/-! DEFINITION. The state of the machine (spec/10_state.md R40 to R55), the reasons a step can stop, and the state after
construction (spec/70_reset_and_hazards.md R450). -/

namespace Sys2Proof.Machine

/-- The kinds of a halt record (spec/60_exceptions.md R400). -/
inductive HaltKind where
  /-- R401: the fetched word is no instruction. -/
  | decodeError
  /-- R402: a fetch or a data access is out of bounds. -/
  | memoryFault
  /-- R403: listed, and never raised (log 13). -/
  | registerIndexFault
  /-- R340: the syscall handler asked the host to terminate. -/
  | terminated
deriving DecidableEq, Repr

/-- The halt record of R400. -/
structure HaltRecord where
  kind : HaltKind
  /-- The address of the instruction being executed. -/
  pc : Word
  /-- The fetched word, absent when the fetch itself failed. -/
  word : Option Word
  /-- The faulting address, present for a MemoryFault. -/
  addr : Option Word
deriving DecidableEq, Repr

/-- The executor's persistent control state (R48). -/
inductive Status where
  | running
  | halted (r : HaltRecord)
deriving DecidableEq, Repr

/-- The machine's state: R[0..31], HI, LO, PC, MEM with MEM_SIZE, `status` (R40), the parameters SLTU_FUNCT and SYSCALL (R9),
and the model's own counts of the free inputs taken: draws (R21; log 11) and choices of the handler's outcome (R340; log 18). -/
structure State where
  regs : Vector Word 32
  hi : Word
  lo : Word
  pc : Word
  mem : Memory
  status : Status
  sltuFunct : SltuFunct
  handler : SyscallHandler
  draws : Nat
  choices : Nat
deriving DecidableEq, Repr

/-- Why a step has no next state. -/
inductive Fault where
  /-- Raised by `syscall` alone, when the handler returns an empty set of outcomes: "The model then has no step, and the
  machine is stuck" (R340). SAFE: the model stops where the hardware might go on (log 8). -/
  | noHandlerOutcome
deriving DecidableEq, Repr

/-- Why an instruction has no meaning in the model. -/
inductive Refusal where
  /-- Raised by an arm of `exec` whose instruction has no meaning yet. SAFE: the model stops. No arm does. -/
  | notModelled (mnemonic : String)
deriving DecidableEq, Repr

/-- What a step or a meaning answers. -/
abbrev Result := Host.Outcome State Fault Refusal

/-- `new(entry_pc)` (R450), with the default parameters (R9). -/
def State.new (entryPc : Word) : State where
  regs := Vector.replicate 32 0#32
  hi := 0#32
  lo := 0#32
  pc := entryPc
  mem := ⟨0, []⟩
  status := .running
  sltuFunct := Config.sltuFunct
  handler := Config.handler
  draws := 0
  choices := 0

/-- The machine right after reset: `new` at the model's entry pc (R450; log 3). Nothing is loaded (log 4). -/
def State.reset : State := State.new Config.entryPc

end Sys2Proof.Machine
end

