-- ==== Sys2Proof/Machine/Memory.lean ====
section
/-! DEFINITION. The byte store (spec/20_memory.md R80 to R92): one byte, one access of 1, 2 or 4 bytes, the canonical form. -/

namespace Sys2Proof.Machine

/-- What a byte below MEM_SIZE that no cell lists reads as (log 5). -/
def Memory.unlisted : Byte := 0#8

/-- The byte listed first at an address. -/
def lookupCell (a : Nat) : List Host.Cell → Byte
  | [] => Memory.unlisted
  | c :: cs => if c.1 = a then c.2 else lookupCell a cs

/-- The cells at other addresses. -/
def eraseCell (a : Nat) : List Host.Cell → List Host.Cell
  | [] => []
  | c :: cs => if c.1 = a then eraseCell a cs else c :: eraseCell a cs

/-- A new cell before the first one at a higher address. -/
def insertCell (a : Nat) (b : Byte) : List Host.Cell → List Host.Cell
  | [] => [(a, b)]
  | c :: cs => if a < c.1 then (a, b) :: c :: cs else c :: insertCell a b cs

/-- The cells after a byte is written: none is kept for the unlisted value. -/
def putCell (a : Nat) (b : Byte) (cells : List Host.Cell) : List Host.Cell :=
  if b = Memory.unlisted then eraseCell a cells else insertCell a b (eraseCell a cells)

/-- `read_byte(a)` for an address below MEM_SIZE (R80). -/
def Memory.readByte (m : Memory) (a : Nat) : Byte := lookupCell a m.cells

/-- `write_byte(a, v)` for an address below MEM_SIZE (R80). -/
def Memory.writeByte (m : Memory) (a : Nat) (b : Byte) : Memory := { m with cells := putCell a b m.cells }

/-- The sizes of an access (R81, R83, R88). -/
inductive Width where
  | byte
  | half
  | word
deriving DecidableEq, Repr

/-- The number of bytes n of an access. -/
def Width.bytes : Width → Nat
  | .byte => 1
  | .half => 2
  | .word => 4

/-- The bounds check of R82: `unsigned(addr) + n - 1 < MEM_SIZE`, on integers, without wrap. -/
def Memory.inBounds (m : Memory) (addr : Word) (width : Width) : Bool :=
  decide (addr.toNat + width.bytes - 1 < m.size)

/-- The big-endian value of the bytes from `a` on (R81, R84). -/
def Memory.value (m : Memory) (a : Nat) : Width → Word
  | .byte => (m.readByte a).setWidth 32
  | .half => (beHalf (m.readByte a) (m.readByte (a + 1))).setWidth 32
  | .word => beWord (m.readByte a) (m.readByte (a + 1)) (m.readByte (a + 2)) (m.readByte (a + 3))

/-- MEM with the low 8n bits of `v` stored big-endian from `a` on (R83, R84). -/
def Memory.store (m : Memory) (a : Nat) (v : Word) : Width → Memory
  | .byte => m.writeByte a (v.extractLsb' 0 8)
  | .half => (m.writeByte a (v.extractLsb' 8 8)).writeByte (a + 1) (v.extractLsb' 0 8)
  | .word =>
    (((m.writeByte a (v.extractLsb' 24 8)).writeByte (a + 1) (v.extractLsb' 16 8)).writeByte (a + 2)
      (v.extractLsb' 8 8)).writeByte (a + 3) (v.extractLsb' 0 8)

/-- `MemRead(addr, n)` (R81), `none` where the bounds check fails (R82). -/
def Memory.read (m : Memory) (addr : Word) (width : Width) : Option Word :=
  if m.inBounds addr width then some (m.value addr.toNat width) else none

/-- `MemWrite(addr, n, v)` (R83), `none`, with nothing written, where the bounds check fails (R82). -/
def Memory.write (m : Memory) (addr : Word) (width : Width) (v : Word) : Option Memory :=
  if m.inBounds addr width then some (m.store addr.toNat v width) else none

/-- Cells with addresses rising from `lo` on, below `size`, none holding the unlisted value. -/
def cellsWf (size : Nat) : Nat → List Host.Cell → Bool
  | _, [] => true
  | lo, c :: cs => decide (lo ≤ c.1) && decide (c.1 < size) && decide (c.2 ≠ Memory.unlisted) && cellsWf size (c.1 + 1) cs

/-- The canonical form, with MEM_SIZE at most 2^32-1 (R54; log 5). -/
def Memory.wf (m : Memory) : Bool := decide (m.size ≤ maxImageLength) && cellsWf m.size 0 m.cells

/-- The cells of an image whose first byte stands at address `a`. -/
def imageCells (a : Nat) : List Byte → List Host.Cell
  | [] => []
  | b :: bs => if b = Memory.unlisted then imageCells (a + 1) bs else (a, b) :: imageCells (a + 1) bs

/-- MEM filled from an image (spec/70_reset_and_hazards.md R451). -/
def Memory.ofImage (image : List Byte) : Memory := ⟨image.length, imageCells 0 image⟩

end Sys2Proof.Machine
end

