-- ==== Sys2Proof/Machine/Ops.lean ====
section
/-! DEFINITION. The named operations over the state: registers (spec/10_state.md R41, R42), pc, HI and LO, taking an error
(spec/60_exceptions.md R400 to R404, R411), the handler (spec/46_system.md R340), the free inputs, the fetch. -/

namespace Sys2Proof.Machine

/-! ### Registers -/

/-- `x[i]`: R[0] reads as zero (R42; log 14). -/
def State.readReg (s : State) (i : RegIdx) : Word := if i = 0 then 0#32 else s.regs[i]

/-- `x[i] <- v`: a write to R[0] is discarded here, in the write path (R42). -/
def State.writeReg (s : State) (i : RegIdx) (v : Word) : State :=
  if i = 0 then s else { s with regs := s.regs.set i v }

/-- `pc <- v`. -/
def State.setPc (s : State) (v : Word) : State := { s with pc := v }

/-- `HI <- v`. -/
def State.setHi (s : State) (v : Word) : State := { s with hi := v }

/-- `LO <- v`. -/
def State.setLo (s : State) (v : Word) : State := { s with lo := v }

/-- MEM after an access. -/
def State.setMem (s : State) (m : Memory) : State := { s with mem := m }

/-- `status <- v` (R48). -/
def State.setStatus (s : State) (v : Status) : State := { s with status := v }

/-- The parameter SYSCALL, which no step changes (spec/00_scope.md R9; log 6). -/
def State.setHandler (s : State) (h : SyscallHandler) : State := { s with handler := h }

/-- The count of draws (log 11). -/
def State.setDraws (s : State) (n : Nat) : State := { s with draws := n }

/-- The count of choices among outcomes (log 18). -/
def State.setChoices (s : State) (n : Nat) : State := { s with choices := n }

/-- `pc + 4`, modulo 2^32 (R50). -/
def State.nextPc (s : State) : Word := s.pc + 4#32

/-- `pc <- pc + 4`. -/
def State.advance (s : State) : State := s.setPc s.nextPc

/-- `HI <- draw32(); LO <- draw32()` (spec/45_muldiv.md R328; log 11). -/
def State.drawHiLo (s : State) : State :=
  ((s.setHi (Config.draw32 s.draws)).setLo (Config.draw32 (s.draws + 1))).setDraws (s.draws + 2)

/-! ### Taking an error: `status` alone changes (R404, R411; log 1). There is no return from one (R412). -/

/-- `raise`: the step ends with this record, which is the final value of `status` (spec/00_scope.md R21, R400). -/
def State.raise (s : State) (kind : HaltKind) (word addr : Option Word) : State :=
  s.setStatus (.halted ⟨kind, s.pc, word, addr⟩)

/-- MemoryFault at `addr` (R402); no word where the fetch itself failed. -/
def State.raiseMemoryFault (s : State) (word : Option Word) (addr : Word) : State :=
  s.raise .memoryFault word (some addr)

/-- DecodeError of a fetched word (R401). -/
def State.raiseDecodeError (s : State) (word : Word) : State := s.raise .decodeError (some word) none

/-- Halted(Terminated), in the state `s1` of the handler, for the `syscall` word fetched at `pc` (R340, R400; log 9). -/
def State.raiseTerminated (s1 : State) (pc word : Word) : State :=
  s1.setStatus (.halted ⟨.terminated, pc, some word, none⟩)

/-! ### Asking the syscall handler (spec/00_scope.md R12, R340; logs 6, 18) -/

/-- What the core hands to the handler (R12): R[0..31] as they read, HI, LO, PC, MEM. -/
def State.arch (s : State) : ArchState := ⟨Vector.ofFn s.readReg, s.hi, s.lo, s.pc, s.mem⟩

/-- `SYSCALL(s)`: the outcomes that the handler answers. -/
def State.outcomes (s : State) : List HandlerOutcome :=
  match s.handler with
  | .constant os => os
  | .injected => Config.syscall s.arch

/-- The `n`-th choice from some outcomes: nothing from none, and nothing to choose from one. -/
def chooseFrom {α : Type} : List α → Nat → Option α
  | [], _ => none
  | [o], _ => some o
  | os, n => os[n % os.length]?

/-- `choose H in SYSCALL(s0)`. -/
def State.chosenOutcome (s : State) : Option HandlerOutcome := chooseFrom s.outcomes (Config.chooseOutcome s.choices)

/-- The state with that choice counted, if there was one among several. -/
def State.countChoice (s : State) : State := s.setChoices (if 2 ≤ s.outcomes.length then s.choices + 1 else s.choices)

/-! ### The syscall handler's changes (R340; log 7) -/

/-- One change; R[0] and the bytes from MEM_SIZE on are out of its reach. -/
def State.applyEdit (s : State) : HandlerEdit → State
  | .reg i v => s.writeReg i v
  | .hi v => s.setHi v
  | .lo v => s.setLo v
  | .pc v => s.setPc v
  | .byte a b => if a.toNat < s.mem.size then s.setMem (s.mem.writeByte a.toNat b) else s

/-- The changes in their order. -/
def State.applyEdits (s : State) : List HandlerEdit → State
  | [] => s
  | e :: es => (s.applyEdit e).applyEdits es

/-- What the core does with a chosen outcome, for the `syscall` word fetched at `s.pc` (R340): on Continue it advances pc once,
from where the handler left it; on Terminate the pc is not advanced (log 9). -/
def State.finishSyscall (s : State) (word : Word) : HandlerOutcome → State
  | .continueWith edits => (s.applyEdits edits).advance
  | .terminateWith edits => (s.applyEdits edits).raiseTerminated s.pc word

/-! ### Fetch (R47, R87) -/

/-- `MemRead(pc, 4)`. -/
def State.fetch (s : State) : Option Word := s.mem.read s.pc .word

/-- The state with a word stored where the next step fetches (log 4): the pc is one that a fetch can read (R50), MEM reaches
the word's last byte, and the machine runs. -/
def State.placeFetchWord (s : State) (w : Word) : State :=
  let pc := if s.pc.toNat + 4 ≤ maxImageLength then s.pc else 0#32
  let m : Memory := { s.mem with size := max s.mem.size (pc.toNat + 4) }
  ((s.setPc pc).setMem (m.store pc.toNat w .word)).setStatus .running

end Sys2Proof.Machine
end

