-- ==== Sys2Proof/Machine/Flags.lean ====
section
/-! DEFINITION. The hardware has no flags and no condition codes (spec/10_state.md R52), so no flag is computed anywhere. Here
stand the conditions that comparisons write to a register and that branches test. -/

namespace Sys2Proof.Machine

/-- `a <s b` (spec/00_scope.md R19, spec/44_alu.md R294). -/
def signedLess (a b : Word) : Bool := decide (a.toInt < b.toInt)

/-- `a <u b` (R19, R295). -/
def unsignedLess (a b : Word) : Bool := decide (a.toNat < b.toNat)

/-- `signed(a) <= 0` (spec/41_control.md R206). -/
def signedNotPositive (a : Word) : Bool := decide (a.toInt ≤ 0)

/-- `signed(a) > 0` (R207). -/
def signedPositive (a : Word) : Bool := decide (0 < a.toInt)

/-- `if c then 1 else 0` as a word (R294, R295). -/
def boolWord (c : Bool) : Word := if c then 1#32 else 0#32

end Sys2Proof.Machine
end

