-- ==== Sys2Proof/Machine/Operands.lean ====
section
/-! DEFINITION. Every operand form of spec/30_encoding.md R125, and the addresses made of them. -/

namespace Sys2Proof.Machine

/-- `sext_16(imm16)` (spec/00_scope.md R18). -/
def sext16 (imm : Imm16) : Word := imm.signExtend 32

/-- `zext_16(imm16)` (R18). -/
def zext16 (imm : Imm16) : Word := imm.setWidth 32

/-- `sext_8(v)` of the low byte of a word (R18). -/
def sextByte (v : Word) : Word := (v.setWidth 8).signExtend 32

/-- `sext_16(v)` of the low halfword of a word (R18). -/
def sextHalf (v : Word) : Word := (v.setWidth 16).signExtend 32

/-- The upper immediate `imm16 << 16` (R125, R236). -/
def upperImm (imm : Imm16) : Word := zext16 imm <<< 16

/-- The target of a taken branch at `pc`: `pc + 4 + (sext_16(imm16) << 2)` (R125, R208). -/
def branchTarget (pc : Word) (off : Imm16) : Word := pc + 4#32 + (sext16 off <<< 2)

/-- The target of a jump at `pc`: `(pc & 0xF0000000) | (zext_26(target26) << 2)` (R125, R200). -/
def jumpTarget (pc : Word) (target : Target26) : Word := (pc &&& 0xF0000000#32) ||| (target.setWidth 32 <<< 2)

/-- The variable shift amount `x[rs] & 0x1F` (R125). -/
def State.shiftAmount (s : State) (rs : RegIdx) : Nat := (s.readReg rs &&& 0x1F#32).toNat

/-- The one addressing mode: `EA := x[rs] + sext_16(imm16)`, modulo 2^32 (spec/42_loadstore.md R230). -/
def State.effectiveAddress (s : State) (rs : RegIdx) (imm : Imm16) : Word := s.readReg rs + sext16 imm

end Sys2Proof.Machine
end

