-- ==== Sys2Proof/Machine/Alu.lean ====
section
/-! DEFINITION. R-type shifts, arithmetic, logic and comparisons (spec/44_alu.md R280 to R295): no trap, no flag. -/

namespace Sys2Proof.Machine

/-- `x[rd] <- v; pc <- pc + 4`. -/
def State.finishAlu (s : State) (rd : RegIdx) (v : Word) : State := (s.writeReg rd v).advance

/-- R280. -/
def execSll (rd rt : RegIdx) (shamt : Shamt) (s : State) : Result :=
  .next (s.finishAlu rd (s.readReg rt <<< shamt.toNat))

/-- R281. -/
def execSrl (rd rt : RegIdx) (shamt : Shamt) (s : State) : Result :=
  .next (s.finishAlu rd (s.readReg rt >>> shamt.toNat))

/-- R282. -/
def execSra (rd rt : RegIdx) (shamt : Shamt) (s : State) : Result :=
  .next (s.finishAlu rd ((s.readReg rt).sshiftRight shamt.toNat))

/-- R283: the value is x[rt], the amount the low five bits of x[rs]. -/
def execSllv (rd rt rs : RegIdx) (s : State) : Result :=
  .next (s.finishAlu rd (s.readReg rt <<< s.shiftAmount rs))

/-- R284: the value is x[rt], the amount the low five bits of x[rs]. -/
def execSrlv (rd rt rs : RegIdx) (s : State) : Result :=
  .next (s.finishAlu rd (s.readReg rt >>> s.shiftAmount rs))

/-- R285: the value is x[rt], the amount the low five bits of x[rs]. -/
def execSrav (rd rt rs : RegIdx) (s : State) : Result :=
  .next (s.finishAlu rd ((s.readReg rt).sshiftRight (s.shiftAmount rs)))

/-- R286: the low 32 bits of the sum; overflow does not trap. -/
def execAdd (rd rs rt : RegIdx) (s : State) : Result :=
  .next (s.finishAlu rd (s.readReg rs + s.readReg rt))

/-- R287. -/
def execAddu (rd rs rt : RegIdx) (s : State) : Result :=
  .next (s.finishAlu rd (s.readReg rs + s.readReg rt))

/-- R288: the low 32 bits of the difference; overflow does not trap. -/
def execSub (rd rs rt : RegIdx) (s : State) : Result :=
  .next (s.finishAlu rd (s.readReg rs - s.readReg rt))

/-- R289. -/
def execSubu (rd rs rt : RegIdx) (s : State) : Result :=
  .next (s.finishAlu rd (s.readReg rs - s.readReg rt))

/-- R290. -/
def execAnd (rd rs rt : RegIdx) (s : State) : Result :=
  .next (s.finishAlu rd (s.readReg rs &&& s.readReg rt))

/-- R291. -/
def execOr (rd rs rt : RegIdx) (s : State) : Result :=
  .next (s.finishAlu rd (s.readReg rs ||| s.readReg rt))

/-- R292. -/
def execXor (rd rs rt : RegIdx) (s : State) : Result :=
  .next (s.finishAlu rd (s.readReg rs ^^^ s.readReg rt))

/-- R293. -/
def execNor (rd rs rt : RegIdx) (s : State) : Result :=
  .next (s.finishAlu rd (~~~(s.readReg rs ||| s.readReg rt)))

/-- R294. -/
def execSlt (rd rs rt : RegIdx) (s : State) : Result :=
  .next (s.finishAlu rd (boolWord (signedLess (s.readReg rs) (s.readReg rt))))

/-- R295. -/
def execSltu (rd rs rt : RegIdx) (s : State) : Result :=
  .next (s.finishAlu rd (boolWord (unsignedLess (s.readReg rs) (s.readReg rt))))

end Sys2Proof.Machine
end

