-- ==== Sys2Proof/Machine/Control.lean ====
section
/-! DEFINITION. Control transfer (spec/41_control.md R200 to R212): no delay slot, no alignment check, no link but the named
ones; no condition but the branch's own is looked at. -/

namespace Sys2Proof.Machine

/-- A branch: taken to its target, or falling through to pc + 4 (R208). -/
def State.branchIf (s : State) (taken : Bool) (off : Imm16) : State :=
  s.setPc (if taken then branchTarget s.pc off else s.nextPc)

/-- R200. -/
def execJ (target : Target26) (s : State) : Result := .next (s.setPc (jumpTarget s.pc target))

/-- R201: the link is pc + 4, in R[31]. -/
def execJal (target : Target26) (s : State) : Result :=
  .next ((s.writeReg 31 s.nextPc).setPc (jumpTarget s.pc target))

/-- R202. -/
def execJr (rs : RegIdx) (s : State) : Result := .next (s.setPc (s.readReg rs))

/-- R203: the target is read before the link is written. -/
def execJalr (rd rs : RegIdx) (s : State) : Result := .next ((s.writeReg rd s.nextPc).setPc (s.readReg rs))

/-- R204. -/
def execBeq (rs rt : RegIdx) (off : Imm16) (s : State) : Result :=
  .next (s.branchIf (decide (s.readReg rs = s.readReg rt)) off)

/-- R205. -/
def execBne (rs rt : RegIdx) (off : Imm16) (s : State) : Result :=
  .next (s.branchIf (decide (s.readReg rs ≠ s.readReg rt)) off)

/-- R206. -/
def execBlez (rs : RegIdx) (off : Imm16) (s : State) : Result :=
  .next (s.branchIf (signedNotPositive (s.readReg rs)) off)

/-- R207. -/
def execBgtz (rs : RegIdx) (off : Imm16) (s : State) : Result :=
  .next (s.branchIf (signedPositive (s.readReg rs)) off)

end Sys2Proof.Machine
end

