-- ==== Sys2Proof/Machine/Immediate.lean ====
section
/-! DEFINITION. Immediate arithmetic and logic (spec/43_immediate.md R260 to R263): no trap, no flag. -/

namespace Sys2Proof.Machine

/-- `x[rt] <- v; pc <- pc + 4`. -/
def State.finishImmediate (s : State) (rt : RegIdx) (v : Word) : State := (s.writeReg rt v).advance

/-- R260: the low 32 bits of the sum; overflow does not trap. -/
def execAddi (rt rs : RegIdx) (imm : Imm16) (s : State) : Result :=
  .next (s.finishImmediate rt (s.readReg rs + sext16 imm))

/-- R261: the immediate is sign-extended. -/
def execAddiu (rt rs : RegIdx) (imm : Imm16) (s : State) : Result :=
  .next (s.finishImmediate rt (s.readReg rs + sext16 imm))

/-- R262: the immediate is zero-extended. -/
def execOri (rt rs : RegIdx) (imm : Imm16) (s : State) : Result :=
  .next (s.finishImmediate rt (s.readReg rs ||| zext16 imm))

/-- R263: the immediate is zero-extended. -/
def execXori (rt rs : RegIdx) (imm : Imm16) (s : State) : Result :=
  .next (s.finishImmediate rt (s.readReg rs ^^^ zext16 imm))

end Sys2Proof.Machine
end

