-- ==== Sys2Proof/Machine/LoadStore.lean ====
section
/-! DEFINITION. Loads and stores (spec/42_loadstore.md R230 to R241). An access out of bounds raises MemoryFault(EA) and has no
other effect (R402, R404). -/

namespace Sys2Proof.Machine

/-- A load of instruction `i`: read at EA, extend, write rt, advance; or MemoryFault, rt untouched (R231 to R235). -/
def State.loadTo (s : State) (i : Instr) (width : Width) (extend : Word → Word) (rt rs : RegIdx) (imm : Imm16) : State :=
  let ea := s.effectiveAddress rs imm
  match s.mem.read ea width with
  | some v => (s.writeReg rt (extend v)).advance
  | none => s.raiseMemoryFault (some (encode s.sltuFunct i)) ea

/-- A store of instruction `i`: write the low bytes of x[rt] at EA, advance; or MemoryFault, no byte written (R237 to R239). -/
def State.storeFrom (s : State) (i : Instr) (width : Width) (rt rs : RegIdx) (imm : Imm16) : State :=
  let ea := s.effectiveAddress rs imm
  match s.mem.write ea width (s.readReg rt) with
  | some m => (s.setMem m).advance
  | none => s.raiseMemoryFault (some (encode s.sltuFunct i)) ea

/-- R231: the byte is sign-extended. -/
def execLb (rt rs : RegIdx) (imm : Imm16) (s : State) : Result :=
  .next (s.loadTo (.lb rt rs imm) .byte sextByte rt rs imm)

/-- R232: the byte is zero-extended, as MemRead gives it (R81). -/
def execLbu (rt rs : RegIdx) (imm : Imm16) (s : State) : Result :=
  .next (s.loadTo (.lbu rt rs imm) .byte id rt rs imm)

/-- R233: the halfword is sign-extended. -/
def execLh (rt rs : RegIdx) (imm : Imm16) (s : State) : Result :=
  .next (s.loadTo (.lh rt rs imm) .half sextHalf rt rs imm)

/-- R234: the halfword is zero-extended, as MemRead gives it (R81). -/
def execLhu (rt rs : RegIdx) (imm : Imm16) (s : State) : Result :=
  .next (s.loadTo (.lhu rt rs imm) .half id rt rs imm)

/-- R235. -/
def execLw (rt rs : RegIdx) (imm : Imm16) (s : State) : Result :=
  .next (s.loadTo (.lw rt rs imm) .word id rt rs imm)

/-- R236: the destination is rt, and no memory is accessed. -/
def execLui (rt : RegIdx) (imm : Imm16) (s : State) : Result := .next ((s.writeReg rt (upperImm imm)).advance)

/-- R237. -/
def execSb (rt rs : RegIdx) (imm : Imm16) (s : State) : Result :=
  .next (s.storeFrom (.sb rt rs imm) .byte rt rs imm)

/-- R238. -/
def execSh (rt rs : RegIdx) (imm : Imm16) (s : State) : Result :=
  .next (s.storeFrom (.sh rt rs imm) .half rt rs imm)

/-- R239. -/
def execSw (rt rs : RegIdx) (imm : Imm16) (s : State) : Result :=
  .next (s.storeFrom (.sw rt rs imm) .word rt rs imm)

end Sys2Proof.Machine
end

