-- ==== Sys2Proof/Machine/MulDiv.lean ====
section
/-! DEFINITION. Multiply, divide and HI/LO (spec/45_muldiv.md R320 to R330): no error, no hazard. -/

namespace Sys2Proof.Machine

/-- `HI <- hi; LO <- lo; pc <- pc + 4`. -/
def State.finishHiLo (s : State) (hi lo : Word) : State := ((s.setHi hi).setLo lo).advance

/-- `HI <- P[63:32]; LO <- P[31:0]` of a 64-bit product (R320, R321). -/
def State.finishProduct (s : State) (p : DWord) : State := s.finishHiLo (p.extractLsb' 32 32) (p.extractLsb' 0 32)

/-- HI and LO of a division by zero: two draws, and the machine goes on (R328). -/
def State.finishDivideByZero (s : State) : State := s.drawHiLo.advance

/-- R320: the exact product of the signed values, modulo 2^64. -/
def execMult (rs rt : RegIdx) (s : State) : Result :=
  .next (s.finishProduct (BitVec.ofInt 64 ((s.readReg rs).toInt * (s.readReg rt).toInt)))

/-- R321: the exact product of the unsigned values. -/
def execMultu (rs rt : RegIdx) (s : State) : Result :=
  .next (s.finishProduct (BitVec.ofNat 64 ((s.readReg rs).toNat * (s.readReg rt).toNat)))

/-- `q := trunc(a / b)`, rounded toward zero (R322, R329). -/
def signedQuotient (a b : Word) : Int := Int.tdiv a.toInt b.toInt

/-- `r := a - q * b` (R322, R329). -/
def signedRemainder (a b : Word) : Int := a.toInt - signedQuotient a b * b.toInt

/-- R322: LO receives the quotient, HI the remainder. -/
def execDiv (rs rt : RegIdx) (s : State) : Result :=
  let a := s.readReg rs
  let b := s.readReg rt
  .next (if b = 0#32 then s.finishDivideByZero
    else s.finishHiLo (BitVec.ofInt 32 (signedRemainder a b)) (BitVec.ofInt 32 (signedQuotient a b)))

/-- R323: LO receives the quotient, HI the remainder. -/
def execDivu (rs rt : RegIdx) (s : State) : Result :=
  let a := s.readReg rs
  let b := s.readReg rt
  .next (if b = 0#32 then s.finishDivideByZero
    else s.finishHiLo (BitVec.ofNat 32 (a.toNat % b.toNat)) (BitVec.ofNat 32 (a.toNat / b.toNat)))

/-- R324. -/
def execMfhi (rd : RegIdx) (s : State) : Result := .next ((s.writeReg rd s.hi).advance)

/-- R325. -/
def execMflo (rd : RegIdx) (s : State) : Result := .next ((s.writeReg rd s.lo).advance)

/-- R326. -/
def execMthi (rs : RegIdx) (s : State) : Result := .next ((s.setHi (s.readReg rs)).advance)

/-- R327. -/
def execMtlo (rs : RegIdx) (s : State) : Result := .next ((s.setLo (s.readReg rs)).advance)

end Sys2Proof.Machine
end

