-- ==== Sys2Proof/Machine/System.lean ====
section
/-! DEFINITION. The environment call (spec/46_system.md R340). There is no other system instruction (R341), no mode (R420) and
no return from an exception (R412). -/

namespace Sys2Proof.Machine

/-- R340: `choose H in SYSCALL(s0)`, and the step ends in that outcome. A handler that returns no outcome leaves the machine
stuck (log 8). -/
def execSyscall (code : BitVec 20) (s : State) : Result :=
  match s.chosenOutcome with
  | none => .fault .noHandlerOutcome
  | some h => .next (s.countChoice.finishSyscall (encode s.sltuFunct (.syscall code)) h)

end Sys2Proof.Machine
end

