-- ==== Sys2Proof/Machine/Cycle.lean ====
section
/-! DEFINITION. One cycle of the executor: fetch, decode, execute (spec/10_state.md R47, spec/60_exceptions.md R408). -/

namespace Sys2Proof.Machine

/-- The step of a running machine, its checks in the order of R408: fetch bounds, decode, then the instruction's own. -/
def State.runCycle (s : State) : Result :=
  match s.fetch with
  | none => .next (s.raiseMemoryFault none s.pc)
  | some w =>
    match decode s.sltuFunct w with
    | .error _ => .next (s.raiseDecodeError w)
    | .ok i => exec i s

/-- The step of R47; a halted machine stays as it is (R48, R407; log 2). -/
def State.cycle (s : State) : Result :=
  match s.status with
  | .halted _ => .next s
  | .running => s.runCycle

end Sys2Proof.Machine
end

