-- ==== Sys2Proof/Machine/Step.lean ====
section
/-! DEFINITION. The step function and the placing of a fetched word; both only call Machine/Cycle.lean and Machine/Ops.lean. -/

namespace Sys2Proof.Machine

/-- `step()` (spec/10_state.md R47, spec/00_scope.md R11). -/
def step (s : State) : Host.Outcome State Fault Refusal := s.cycle

/-- `s` with an opcode-table word stored where `step` fetches its next instruction (log 4). -/
def State.withFetchWord (s : State) (nbits w : Nat) : State := s.placeFetchWord (BitVec.ofNat 32 (w % 2 ^ nbits))

end Sys2Proof.Machine
end

