-- ==== Sys2Proof/Machine/Embedder.lean ====
section
/-! DEFINITION. What the embedder calls and is told (spec/00_scope.md R11, R13): `load`, `run(n)`, `execute()`, the three
results of a step, the numbering of the error kinds. `new` is `State.new`, `step()` is `step`. -/

namespace Sys2Proof.Machine

/-- LoadError, raised at construction only (spec/60_exceptions.md R406; log 17). -/
inductive LoadError where
  | imageTooLong
deriving DecidableEq, Repr

/-- `load(image)` (spec/70_reset_and_hazards.md R451; log 16): MEM is the image, MEM_SIZE its length, nothing else changes. -/
def State.load (s : State) (image : List Byte) : Except LoadError State :=
  if imageWellFormed image then .ok (s.setMem (Memory.ofImage image)) else .error .imageTooLong

/-- The launch state of R452, for an image that `load` accepts. -/
def State.launch (entryPc : Word) (image : List Byte) : Except LoadError State := (State.new entryPc).load image

/-- `run(n)`: n steps, or until halted (R13, R407). -/
def run : Nat → State → Result
  | 0, s => .next s
  | n + 1, s =>
    match s.status with
    | .halted _ => .next s
    | .running =>
      match step s with
      | .next t => run n t
      | .fault r => .fault r
      | .refused r => .refused r

/-- `execute()`: the run from `s` ends halted in `t` (R13, R454). -/
def Executes (s t : State) : Prop := ∃ n, run n s = .next t ∧ t.status ≠ .running

/-- What `step()` returns to the embedder (R11). -/
inductive StepResult where
  | next (s : State)
  | halt (r : HaltRecord)
  | terminated
deriving DecidableEq, Repr

/-- The embedder's view of the state that a step has left (R11, R48, R400). -/
def State.result (s : State) : StepResult :=
  match s.status with
  | .running => .next s
  | .halted r => if r.kind = .terminated then .terminated else .halt r

/-- The spec's numbering of the error kinds (R400). -/
def HaltKind.code : HaltKind → Nat
  | .decodeError => 1
  | .memoryFault => 2
  | .registerIndexFault => 3
  | .terminated => 5

/-- LoadError's number (R400). -/
def loadErrorCode : Nat := 4

end Sys2Proof.Machine
end

