-- ==== Sys2Proof/Safety.lean ====
section
/-! DEFINITION. The terms that claims use: the invariant, what an instruction leaves unchanged, how an encoding selects an
instruction. -/

namespace Sys2Proof.Machine

/-! ### The invariant -/

/-- The fields that a halt record has, for a machine whose pc is `pc` (spec/60_exceptions.md R400, R402 to R404). -/
def HaltRecord.wellFormed (r : HaltRecord) (pc : Word) : Bool :=
  match r.kind with
  | .decodeError => decide (r.pc = pc) && r.word.isSome && r.addr.isNone
  | .memoryFault => decide (r.pc = pc) && r.addr.isSome && (r.word.isSome || decide (r.addr = some pc))
  | .registerIndexFault => false
  | .terminated => r.word.isSome && r.addr.isNone

/-- A running machine has no record; a halted one has a well-formed record. -/
def State.statusWf (s : State) : Bool :=
  match s.status with
  | .running => true
  | .halted r => r.wellFormed s.pc

/-- What holds of the machine from construction on: R[0] is stored as zero (spec/10_state.md R42), MEM is in canonical form with
MEM_SIZE at most 2^32-1 (R54), and a halt record says what R400 says. -/
structure State.Inv (s : State) : Prop where
  zero_slot : s.regs[0] = 0#32
  mem_wf : s.mem.wf = true
  status_wf : s.statusWf = true

/-- `t` is reached from `s` by some number of steps. -/
def Reaches (s t : State) : Prop := ∃ n, run n s = .next t

/-! ### Frames -/

/-- No general register reads differently. -/
def SameRegs (s t : State) : Prop := ∀ k, t.readReg k = s.readReg k

/-- Register `rd` reads as `v` (R[0] as zero, R42), every other one as before. -/
def RegsWith (s t : State) (rd : RegIdx) (v : Word) : Prop :=
  ∀ k, t.readReg k = if k = 0 then 0#32 else if k = rd then v else s.readReg k

/-- HI and LO are unchanged. -/
def SameHiLo (s t : State) : Prop := t.hi = s.hi ∧ t.lo = s.lo

/-- No byte of MEM reads differently, and MEM_SIZE is unchanged. -/
def SameMem (s t : State) : Prop := t.mem.size = s.mem.size ∧ ∀ a, t.mem.readByte a = s.mem.readByte a

/-- The bytes of MEM outside the `n` ones from `a` on read as before, and MEM_SIZE is unchanged. -/
def SameMemOutside (s t : State) (a n : Nat) : Prop :=
  t.mem.size = s.mem.size ∧ ∀ b, (b < a ∨ a + n ≤ b) → t.mem.readByte b = s.mem.readByte b

/-- The parameters and the counts of free inputs are unchanged. -/
def SameParams (s t : State) : Prop :=
  t.sltuFunct = s.sltuFunct ∧ t.handler = s.handler ∧ t.draws = s.draws ∧ t.choices = s.choices

/-- Only `rd` and the pc change: `rd` receives `v`, the pc `pc`. -/
def WritesReg (s t : State) (rd : RegIdx) (v pc : Word) : Prop :=
  RegsWith s t rd v ∧ t.pc = pc ∧ SameHiLo s t ∧ SameMem s t ∧ t.status = s.status ∧ SameParams s t

/-- Only the pc changes. -/
def WritesPc (s t : State) (pc : Word) : Prop :=
  SameRegs s t ∧ t.pc = pc ∧ SameHiLo s t ∧ SameMem s t ∧ t.status = s.status ∧ SameParams s t

/-- Only HI, LO and the pc change, the pc to pc + 4. -/
def WritesHiLo (s t : State) (hi lo : Word) : Prop :=
  t.hi = hi ∧ t.lo = lo ∧ SameRegs s t ∧ t.pc = s.pc + 4#32 ∧ SameMem s t ∧ t.status = s.status ∧ SameParams s t

/-- Only the `n` bytes of MEM from `a` on and the pc change, the pc to pc + 4. -/
def WritesMem (s t : State) (a n : Nat) : Prop :=
  SameRegs s t ∧ t.pc = s.pc + 4#32 ∧ SameHiLo s t ∧ SameMemOutside s t a n ∧ t.status = s.status ∧ SameParams s t

/-- The pc of `t` is the one that a branch with the displacement `off` takes from `s`: 4 times `off` from `s.pc + 4`, so within
the reach of spec/41_control.md R208. -/
def BranchReaches (s t : State) (off : Imm16) : Prop :=
  (t.pc - (s.pc + 4#32)).toInt = 4 * off.toInt ∧
  -131072 ≤ (t.pc - (s.pc + 4#32)).toInt ∧ (t.pc - (s.pc + 4#32)).toInt ≤ 131068

/-- Only the status changes: the machine halts with the record `r`. -/
def HaltsWith (s t : State) (r : HaltRecord) : Prop :=
  t.status = .halted r ∧ SameRegs s t ∧ t.pc = s.pc ∧ SameHiLo s t ∧ SameMem s t ∧ SameParams s t

/-! ### Encodings (spec/30_encoding.md R128 to R131) -/

/-- Every word with this op decodes to the instruction built from its fields. -/
def EncodedByOp (op : BitVec 6) (build : Word → Instr) : Prop :=
  ∀ f w, opField w = op → decode f w = .ok (build w)

/-- Every word with op = 0 and this funct decodes to the instruction built from its fields. -/
def EncodedByFunct (funct : BitVec 6) (build : Word → Instr) : Prop :=
  ∀ f w, opField w = 0#6 → functField w = funct → decode f w = .ok (build w)

/-- The op values of the map of R129 that are no dash. -/
def mappedOps : List (BitVec 6) :=
  [0x00#6, 0x02#6, 0x03#6, 0x04#6, 0x05#6, 0x06#6, 0x07#6, 0x08#6, 0x09#6, 0x0D#6, 0x0E#6, 0x0F#6,
   0x20#6, 0x21#6, 0x23#6, 0x24#6, 0x25#6, 0x28#6, 0x29#6, 0x2B#6]

/-- The funct values of the map of R130 that are no dash, `sltu` apart. -/
def mappedFuncts : List (BitVec 6) :=
  [0x00#6, 0x02#6, 0x03#6, 0x04#6, 0x06#6, 0x07#6, 0x08#6, 0x09#6, 0x0C#6, 0x10#6, 0x11#6, 0x12#6, 0x13#6,
   0x18#6, 0x19#6, 0x1A#6, 0x1B#6, 0x20#6, 0x21#6, 0x22#6, 0x23#6, 0x24#6, 0x25#6, 0x26#6, 0x27#6, 0x2A#6]

/-- The word is an instruction by the maps of R129 and R130. -/
def Mapped (f : SltuFunct) (w : Word) : Prop :=
  opField w ∈ mappedOps ∧ (opField w = 0#6 → functField w ∈ mappedFuncts ∨ functField w = f.code)

end Sys2Proof.Machine

namespace Sys2Proof

/-! ### The register table of spec/10_state.md R44 -/

/-- The general register that an instruction writes, by R44; the handler of a `syscall` apart. -/
def Instr.destination : Instr → Option RegIdx
  | .lb rt _ _ | .lbu rt _ _ | .lh rt _ _ | .lhu rt _ _ | .lw rt _ _ | .lui rt _ => some rt
  | .addi rt _ _ | .addiu rt _ _ | .ori rt _ _ | .xori rt _ _ => some rt
  | .sll rd _ _ | .srl rd _ _ | .sra rd _ _ | .sllv rd _ _ | .srlv rd _ _ | .srav rd _ _ => some rd
  | .add rd _ _ | .addu rd _ _ | .sub rd _ _ | .subu rd _ _ | .and rd _ _ | .or rd _ _ => some rd
  | .xor rd _ _ | .nor rd _ _ | .slt rd _ _ | .sltu rd _ _ | .mfhi rd | .mflo rd | .jalr rd _ => some rd
  | .jal _ => some 31
  | .j _ | .jr _ | .beq _ _ _ | .bne _ _ _ | .blez _ _ | .bgtz _ _ | .sb _ _ _ | .sh _ _ _ | .sw _ _ _ => none
  | .mult _ _ | .multu _ _ | .div _ _ | .divu _ _ | .mthi _ | .mtlo _ | .syscall _ => none

/-- The control-transfer instructions of spec/41_control.md. -/
def Instr.isControlTransfer : Instr → Bool
  | .j _ | .jal _ | .jr _ | .jalr _ _ | .beq _ _ _ | .bne _ _ _ | .blez _ _ | .bgtz _ _ => true
  | _ => false

/-- The stores (spec/42_loadstore.md R237 to R239). -/
def Instr.isStore : Instr → Bool
  | .sb _ _ _ | .sh _ _ _ | .sw _ _ _ => true
  | _ => false

/-- The loads from memory (R231 to R235). -/
def Instr.isLoad : Instr → Bool
  | .lb _ _ _ | .lbu _ _ _ | .lh _ _ _ | .lhu _ _ _ | .lw _ _ _ => true
  | _ => false

/-- `syscall` (spec/46_system.md R340). -/
def Instr.isSyscall : Instr → Bool
  | .syscall _ => true
  | _ => false

/-- The instructions that write HI (spec/10_state.md R51). -/
def Instr.writesHi : Instr → Bool
  | .mult _ _ | .multu _ _ | .div _ _ | .divu _ _ | .mthi _ => true
  | _ => false

/-- The instructions that write LO (R51). -/
def Instr.writesLo : Instr → Bool
  | .mult _ _ | .multu _ _ | .div _ _ | .divu _ _ | .mtlo _ => true
  | _ => false

/-- The instructions that read HI or LO (R51). -/
def Instr.readsHiLo : Instr → Bool
  | .mfhi _ | .mflo _ => true
  | _ => false

end Sys2Proof
end

