-- ==== Sys2Proof/Certificates/Slice0/Obligations.lean ====
section
/-! DEFINITION. The statements for the provers. A docstring names the rule of spec/, or says what of the spec's own decisions
or of the model's log a statement rests on. -/

open Sys2Proof Sys2Proof.Machine

/-- For every entry pc, State.new has every general register, HI and LO zero, PC the entry pc, MEM empty with MEM_SIZE 0,
and status running. [R450] -/
def Obligations.ConstructionLeavesTheSpecifiedState : Prop :=
  ∀ e : Word, (∀ k, (State.new e).readReg k = 0#32) ∧ (State.new e).hi = 0#32 ∧ (State.new e).lo = 0#32 ∧
    (State.new e).pc = e ∧ (State.new e).mem.size = 0 ∧ (State.new e).mem.cells = [] ∧ (State.new e).status = .running

/-- For every state and image of at most 2^32-1 bytes, load answers a state with MEM_SIZE = length(image), every byte of the
image at its index, and every register, HI, LO, PC, status and parameter unchanged; for a longer image it answers
LoadError (that limit's treatment is the spec's decision D22; that load is a function on every state, so also on a
loaded machine, is log 16). [70_reset_and_hazards.md §1 (R451), 60_exceptions.md §1 (R406), 92_eei_decisions.md D22,
notes/assumptions/16.md] -/
def Obligations.LoadFillsMemoryOrFailsForLength : Prop :=
  ∀ (s : State) (image : List Byte),
    (image.length ≤ 4294967295 → ∃ t, s.load image = .ok t ∧ t.mem.size = image.length ∧
      (∀ i (h : i < image.length), t.mem.readByte i = image[i]) ∧
      SameRegs s t ∧ SameHiLo s t ∧ t.pc = s.pc ∧ t.status = s.status ∧ SameParams s t) ∧
    (4294967295 < image.length → s.load image = .error .imageTooLong)

/-- For every state, word and instruction: if the machine runs, the four bytes at pc are in bounds and make the big-endian
word w, and w decodes to i under the machine's SLTU_FUNCT, then step is exec of i at that state; nothing is added around
exec, whatever the alignment of pc. [10_state.md §3 (R47), 20_memory.md §3 (R87)] -/
def Obligations.StepRunsTheDecodedInstruction : Prop :=
  ∀ (s : State) (w : Word) (i : Instr), s.status = .running → s.pc.toNat + 3 < s.mem.size →
    w = s.mem.readByte s.pc.toNat ++ s.mem.readByte (s.pc.toNat + 1) ++ s.mem.readByte (s.pc.toNat + 2) ++
      s.mem.readByte (s.pc.toNat + 3) →
    decode s.sltuFunct w = .ok i → step s = exec i s

/-- For every running state whose pc + 3, without wrap, is not below MEM_SIZE, step answers a next state that differs only
in status: halted, MemoryFault, that pc, no word, addr = pc (precision is the spec's decision D12, the order of checks
D24). The constructed machine, on which nothing is loaded, does so at every entry pc (D28). [60_exceptions.md §1 (R402),
60_exceptions.md §2 (R408), 70_reset_and_hazards.md §1 (R452), 92_eei_decisions.md D12, D24, D28] -/
def Obligations.FetchOutOfBoundsHaltsBeforeDecoding : Prop :=
  (∀ s : State, s.status = .running → s.mem.size ≤ s.pc.toNat + 3 →
    ∃ t, step s = .next t ∧ HaltsWith s t ⟨.memoryFault, s.pc, none, some s.pc⟩) ∧
  ∀ e : Word, ∃ t, step (State.new e) = .next t ∧ HaltsWith (State.new e) t ⟨.memoryFault, e, none, some e⟩

/-- For every running state that fetches a word which the maps of R129 and R130 show as a dash (with the machine's
SLTU_FUNCT), step answers a next state that differs only in status: halted, DecodeError, that pc, that word, no addr.
The maps hold the spec's decisions D1 and D2, precision is D12. [30_encoding.md §4 (R140), 60_exceptions.md §1 (R401),
92_eei_decisions.md D1, D2, D12] -/
def Obligations.UnmappedWordHaltsWithDecodeError : Prop :=
  ∀ (s : State) (w : Word), s.status = .running → s.fetch = some w → ¬ Mapped s.sltuFunct w →
    ∃ t, step s = .next t ∧ HaltsWith s t ⟨.decodeError, s.pc, some w, none⟩

/-- For every state whose status is halted with a record, a step, the embedder's run of n steps and the host's run of n
steps all answer that very state (that a halt is final is the spec's decision D14; the answer by a next state is log 2).
[60_exceptions.md §1 (R407), 10_state.md §3 (R48), 92_eei_decisions.md D14] -/
def Obligations.HaltedMachineNeverChanges : Prop :=
  ∀ (s : State) (r : HaltRecord) (n : Nat), s.status = .halted r →
    step s = .next s ∧ run n s = .next s ∧ Host.Core.run Sys2Proof.core n s = .next s

/-- For every n and every state, n steps of the machine by the host's interface give what the embedder's run(n) gives, which
stops at the first halt or stuck step: stepping a halted machine is invisible (D14). [00_scope.md §5 (R11, R13),
60_exceptions.md §1 (R407), 92_eei_decisions.md D14] -/
def Obligations.RunningUntilHaltedIsTheHostRun : Prop :=
  ∀ (n : Nat) (s : State), Host.Core.run Sys2Proof.core n s = run n s

/-- For every running state and every step that has a next state t: the embedder's result is Next(t) exactly when t is
running, Terminated only if the fetched word decodes to syscall, and Halt(record) only with kind DecodeError or
MemoryFault. [00_scope.md §5 (R11), 60_exceptions.md §1 (R400, R402), 46_system.md (R340)] -/
def Obligations.StepResultTellsTheEmbedderTheThreeOutcomes : Prop :=
  ∀ s t : State, s.status = .running → step s = .next t →
    (t.result = .next t ↔ t.status = .running) ∧
    (t.result = .terminated → ∃ w code, s.fetch = some w ∧ decode s.sltuFunct w = .ok (.syscall code)) ∧
    (∀ r, t.result = .halt r → t.status = .halted r ∧ (r.kind = .decodeError ∨ r.kind = .memoryFault))

/-- For every memory and address: a read of 1, 2 or 4 bytes that is in bounds returns the shift-and-or formula of R81 over
those bytes, the lowest address most significant, zero-extended to 32 bits (the bounds condition is the spec's decision
D11). [20_memory.md §1 (R81, R82), 92_eei_decisions.md D11] -/
def Obligations.MemReadIsBigEndian : Prop :=
  ∀ (m : Memory) (a : Word),
    (a.toNat < m.size → m.read a .byte = some ((m.readByte a.toNat).setWidth 32)) ∧
    (a.toNat + 1 < m.size →
      m.read a .half = some (((m.readByte a.toNat).setWidth 32 <<< 8) ||| (m.readByte (a.toNat + 1)).setWidth 32)) ∧
    (a.toNat + 3 < m.size →
      m.read a .word = some (((m.readByte a.toNat).setWidth 32 <<< 24) ||| ((m.readByte (a.toNat + 1)).setWidth 32 <<< 16) |||
        ((m.readByte (a.toNat + 2)).setWidth 32 <<< 8) ||| (m.readByte (a.toNat + 3)).setWidth 32))

/-- For every memory, address and value: a write of 1, 2 or 4 bytes that is in bounds stores v[7:0], or v[15:8] and v[7:0],
or v[31:24] to v[7:0] in rising addresses, changes no byte outside [addr, addr+n-1] and keeps MEM_SIZE (the bounds
condition is the spec's decision D11). [20_memory.md §1 (R82, R83), 92_eei_decisions.md D11] -/
def Obligations.MemWriteIsBigEndianAndLocal : Prop :=
  ∀ (m : Memory) (a v : Word),
    (a.toNat < m.size → ∃ n, m.write a .byte v = some n ∧ n.size = m.size ∧ n.readByte a.toNat = v.extractLsb' 0 8 ∧
      ∀ b, b ≠ a.toNat → n.readByte b = m.readByte b) ∧
    (a.toNat + 1 < m.size → ∃ n, m.write a .half v = some n ∧ n.size = m.size ∧
      n.readByte a.toNat = v.extractLsb' 8 8 ∧ n.readByte (a.toNat + 1) = v.extractLsb' 0 8 ∧
      ∀ b, (b < a.toNat ∨ a.toNat + 2 ≤ b) → n.readByte b = m.readByte b) ∧
    (a.toNat + 3 < m.size → ∃ n, m.write a .word v = some n ∧ n.size = m.size ∧
      n.readByte a.toNat = v.extractLsb' 24 8 ∧ n.readByte (a.toNat + 1) = v.extractLsb' 16 8 ∧
      n.readByte (a.toNat + 2) = v.extractLsb' 8 8 ∧ n.readByte (a.toNat + 3) = v.extractLsb' 0 8 ∧
      ∀ b, (b < a.toNat ∨ a.toNat + 4 ≤ b) → n.readByte b = m.readByte b)

/-- For every memory, address, width and value, MemRead and MemWrite refuse exactly when unsigned(addr) + n - 1 ≥ MEM_SIZE
as integers (the spec's decision D11); with MEM_SIZE at most 2^32-1 a fetch at a pc at or above 0xFFFFFFFC is out of
bounds (R50 is the spec's own derivation). [20_memory.md §1 (R82), 10_state.md §3 (R50), 92_eei_decisions.md D11] -/
def Obligations.BoundsCheckDoesNotWrap : Prop :=
  (∀ (m : Memory) (a v : Word) (w : Width) (n : Nat), (w = .byte ∧ n = 1 ∨ w = .half ∧ n = 2 ∨ w = .word ∧ n = 4) →
    (m.read a w = none ↔ m.size ≤ a.toNat + n - 1) ∧ (m.write a w v = none ↔ m.size ≤ a.toNat + n - 1)) ∧
  ∀ s : State, s.mem.size ≤ 4294967295 → 0xFFFFFFFC ≤ s.pc.toNat → s.fetch = none

/-- For every memory in canonical form: after MemWrite(a, 4, w) the four bytes and the two halfwords read at a, a+1, a+2,
a+3 are the parts of w that R85 lists; after MemWrite(a, 2, h) the two bytes are h[15:8] and h[7:0] (R85 is the spec's
own derivation). [20_memory.md §2 (R85)] -/
def Obligations.MixedWidthViewsAgree : Prop :=
  ∀ (m n : Memory) (a w : Word), m.wf = true →
    (m.write a .word w = some n →
      n.read a .byte = some ((w.extractLsb' 24 8).setWidth 32) ∧
      n.read (a + 1#32) .byte = some ((w.extractLsb' 16 8).setWidth 32) ∧
      n.read (a + 2#32) .byte = some ((w.extractLsb' 8 8).setWidth 32) ∧
      n.read (a + 3#32) .byte = some ((w.extractLsb' 0 8).setWidth 32) ∧
      n.read a .half = some ((w.extractLsb' 16 16).setWidth 32) ∧
      n.read (a + 2#32) .half = some ((w.extractLsb' 0 16).setWidth 32)) ∧
    (m.write a .half w = some n →
      n.read a .byte = some ((w.extractLsb' 8 8).setWidth 32) ∧
      n.read (a + 1#32) .byte = some ((w.extractLsb' 0 8).setWidth 32))

/-- For every memory in canonical form every successful write gives one in canonical form, and two canonical memories of the
same size whose bytes below it all read alike are equal (the form is the model's, log 5). [10_state.md §6 (R54),
20_memory.md §1 (R80, R83), 42_loadstore.md §4 (R241)] -/
def Obligations.EveryMemoryWriteKeepsTheCanonicalForm : Prop :=
  (∀ (m n : Memory) (a v : Word) (w : Width), m.wf = true → m.write a w v = some n → n.wf = true) ∧
  ∀ m n : Memory, m.wf = true → n.wf = true → m.size = n.size →
    (∀ a, a < m.size → m.readByte a = n.readByte a) → m = n

/-- For every word, each of op, rs, rt, rd, shamt, funct, imm16 and target26 is the word masked and shifted as the table of
R121 says, as an unsigned number. [R121] -/
def Obligations.FieldsAreMaskAndShift : Prop :=
  ∀ w : Word,
    (opField w).toNat = ((w &&& 0xFC000000#32) >>> 26).toNat ∧
    (rsField w).val = ((w &&& 0x03E00000#32) >>> 21).toNat ∧
    (rtField w).val = ((w &&& 0x001F0000#32) >>> 16).toNat ∧
    (rdField w).val = ((w &&& 0x0000F800#32) >>> 11).toNat ∧
    (shamtField w).toNat = ((w &&& 0x000007C0#32) >>> 6).toNat ∧
    (functField w).toNat = (w &&& 0x0000003F#32).toNat ∧
    (imm16Field w).toNat = (w &&& 0x0000FFFF#32).toNat ∧
    (target26Field w).toNat = (w &&& 0x03FFFFFF#32).toNat

/-- For every word and both values of SLTU_FUNCT, the decoder answers an instruction exactly when op is in the map of R129
and, for op = 0, funct is in the map of R130 or is SLTU_FUNCT (ori is D1, sltu D2). [30_encoding.md §3 (R128 to R131),
30_encoding.md §4 (R140, R141), 92_eei_decisions.md D1, D2] -/
def Obligations.DecodingFollowsTheOpcodeMaps : Prop :=
  ∀ (f : SltuFunct) (w : Word), (∃ i, decode f w = .ok i) ↔ Mapped f w

/-- For both values of SLTU_FUNCT and every well-formed instruction of all 46, with every operand at every value, decode of
encode is that instruction. [30_encoding.md §1 to §3 (R122 to R131)] -/
def Obligations.DecodeOfEncodeIsTheInstruction : Prop :=
  ∀ (f : SltuFunct) (i : Instr), i.wellFormed = true → decode f (encode f i) = .ok i

/-- For every word that decodes, the encoder applied to the instruction gives the word with exactly the ignored bits of R127
cleared (D21; the bits of syscall are carried, log 12), so no bit that an instruction reads is dropped or moved.
[30_encoding.md §2 (R127), 30_encoding.md §1 (R121), 92_eei_decisions.md D21] -/
def Obligations.EncodeOfDecodeKeepsEveryReadBit : Prop :=
  ∀ (f : SltuFunct) (w : Word) (i : Instr), decode f w = .ok i → encode f i = w &&& ~~~ (ignoredMask i)

/-- For every word that decodes to i and every word that agrees with it outside the ignored bits of i, the second word
decodes to i as well: no value of an ignored field is a DecodeError (D21). For syscall ignoredMask is 0, because its
constructor carries bits 25:6 (log 12, the model's design choice), so for those bits, which R127 lists as ignored, it is
stated apart: every word with op 0 and funct 0x0C is a syscall, and if syscall completes with some bits 25:6 it
completes with any others, in a state that differs at most in the word of a halt record. [30_encoding.md §2 (R127),
46_system.md (R340), 92_eei_decisions.md D21, notes/assumptions/12.md] -/
def Obligations.IgnoredFieldsNeverSelect : Prop :=
  (∀ (f : SltuFunct) (w v : Word) (i : Instr), decode f w = .ok i →
    w &&& ~~~ (ignoredMask i) = v &&& ~~~ (ignoredMask i) → decode f v = .ok i) ∧
  EncodedByFunct 0x0C#6 (fun w => .syscall (codeField w)) ∧
  ∀ (code code' : BitVec 20) (s t : State), exec (.syscall code) s = .next t →
    ∃ u, exec (.syscall code') s = .next u ∧ u = t.setStatus u.status ∧ (t.status = .running → u.status = .running) ∧
      ∀ r, t.status = .halted r → ∃ word, u.status = .halted { r with word := word }

/-- With SLTU_FUNCT = 0x29, one or two example words of every family decode to the instruction and operands the spec gives
beside them. [41_control.md §1, 42_loadstore.md §2, §3, 43_immediate.md, 44_alu.md, 45_muldiv.md, 46_system.md] -/
def Obligations.ExampleWordsDecode : Prop :=
  decode .f29 0x0C000004#32 = .ok (.jal 4#26) ∧
  decode .f29 0x0120F809#32 = .ok (.jalr 31 9) ∧
  decode .f29 0x1401FFFE#32 = .ok (.bne 0 1 0xFFFE#16) ∧
  decode .f29 0x8C080100#32 = .ok (.lw 8 0 0x0100#16) ∧
  decode .f29 0xA0620000#32 = .ok (.sb 2 3 0#16) ∧
  decode .f29 0x3C011234#32 = .ok (.lui 1 0x1234#16) ∧
  decode .f29 0x24080005#32 = .ok (.addiu 8 0 5#16) ∧
  decode .f29 0x00011103#32 = .ok (.sra 2 1 4#5) ∧
  decode .f29 0x00611004#32 = .ok (.sllv 2 1 3) ∧
  decode .f29 0x00221829#32 = .ok (.sltu 3 1 2) ∧
  decode .f29 0x0022001A#32 = .ok (.div 1 2) ∧
  decode .f29 0x0000000C#32 = .ok (.syscall 0#20)

/-- Every word with op 2 is j and with op 3 is jal of its target26; each completes in every state with pc = (pc &
0xF0000000) | (target26 << 2); j changes nothing else, jal also writes pc + 4 to R[31] and nothing else. Every word with
op 0 and funct 0x08 is jr of its rs; it completes in every state with pc = x[rs], aligned or not, and changes nothing
else. [R200, R201, R202] -/
def Obligations.JumpsGoToTheirTargets : Prop :=
  EncodedByOp 0x02#6 (fun w => .j (target26Field w)) ∧ EncodedByOp 0x03#6 (fun w => .jal (target26Field w)) ∧
  EncodedByFunct 0x08#6 (fun w => .jr (rsField w)) ∧
  (∀ (target : Target26) (s : State),
    (∃ t, exec (.j target) s = .next t ∧ WritesPc s t ((s.pc &&& 0xF0000000#32) ||| (target.setWidth 32 <<< 2))) ∧
    (∃ t, exec (.jal target) s = .next t ∧
      WritesReg s t 31 (s.pc + 4#32) ((s.pc &&& 0xF0000000#32) ||| (target.setWidth 32 <<< 2)))) ∧
  ∀ (rs : RegIdx) (s : State), ∃ t, exec (.jr rs) s = .next t ∧ WritesPc s t (s.readReg rs)

/-- Every word with op 0 and funct 0x09 is jalr of its rd and rs; it completes in every state with pc = the x[rs] held
before the link write (D4), rd = pc + 4 (nothing written if rd = 0), nothing else changed. [41_control.md §1 (R203),
92_eei_decisions.md D4] -/
def Obligations.JumpAndLinkRegisterReadsBeforeLinking : Prop :=
  EncodedByFunct 0x09#6 (fun w => .jalr (rdField w) (rsField w)) ∧
  ∀ (rd rs : RegIdx) (s : State), ∃ t, exec (.jalr rd rs) s = .next t ∧ WritesReg s t rd (s.pc + 4#32) (s.readReg rs)

/-- Every word with op 4, 5, 6, 7 is the branch with its fields; each completes in every state, sets pc to the target when
its condition (equal, different, signed <= 0, signed > 0) holds and to pc + 4 otherwise, and changes nothing else.
[R204, R205, R206, R207] -/
def Obligations.BranchesTakeOrFallThrough : Prop :=
  EncodedByOp 0x04#6 (fun w => .beq (rsField w) (rtField w) (imm16Field w)) ∧
  EncodedByOp 0x05#6 (fun w => .bne (rsField w) (rtField w) (imm16Field w)) ∧
  EncodedByOp 0x06#6 (fun w => .blez (rsField w) (imm16Field w)) ∧
  EncodedByOp 0x07#6 (fun w => .bgtz (rsField w) (imm16Field w)) ∧
  ∀ (rs rt : RegIdx) (off : Imm16) (s : State),
    (∃ t, exec (.beq rs rt off) s = .next t ∧ WritesPc s t
      (if s.readReg rs = s.readReg rt then s.pc + 4#32 + (off.signExtend 32 <<< 2) else s.pc + 4#32)) ∧
    (∃ t, exec (.bne rs rt off) s = .next t ∧ WritesPc s t
      (if s.readReg rs = s.readReg rt then s.pc + 4#32 else s.pc + 4#32 + (off.signExtend 32 <<< 2))) ∧
    (∃ t, exec (.blez rs off) s = .next t ∧ WritesPc s t
      (if (s.readReg rs).toInt ≤ 0 then s.pc + 4#32 + (off.signExtend 32 <<< 2) else s.pc + 4#32)) ∧
    (∃ t, exec (.bgtz rs off) s = .next t ∧ WritesPc s t
      (if 0 < (s.readReg rs).toInt then s.pc + 4#32 + (off.signExtend 32 <<< 2) else s.pc + 4#32))

/-- For every state and offset, each of beq, bne, blez and bgtz whose condition holds (equal, different, signed <= 0, signed
> 0) completes with pc - (pc + 4), as a signed number, equal to 4 times the signed imm16, so within -0x20000 and
+0x1FFFC. After j or jal the pc is a multiple of 4, and after beq, bne, blez, bgtz, taken or not, the low two bits of pc
are those it had (R126 is the spec's own derivation). [41_control.md §1 (R204 to R207), 41_control.md §2 (R208, R210),
30_encoding.md §2 (R126)] -/
def Obligations.TransferTargetsReachAndAlign : Prop :=
  (∀ (rs rt : RegIdx) (off : Imm16) (s : State),
    (s.readReg rs = s.readReg rt → ∃ t, exec (.beq rs rt off) s = .next t ∧ BranchReaches s t off) ∧
    (s.readReg rs ≠ s.readReg rt → ∃ t, exec (.bne rs rt off) s = .next t ∧ BranchReaches s t off) ∧
    ((s.readReg rs).toInt ≤ 0 → ∃ t, exec (.blez rs off) s = .next t ∧ BranchReaches s t off) ∧
    (0 < (s.readReg rs).toInt → ∃ t, exec (.bgtz rs off) s = .next t ∧ BranchReaches s t off)) ∧
  ∀ s t : State,
    (∀ target, (exec (.j target) s = .next t ∨ exec (.jal target) s = .next t) → t.pc.toNat % 4 = 0) ∧
    (∀ rs rt off, (exec (.beq rs rt off) s = .next t ∨ exec (.bne rs rt off) s = .next t ∨
      exec (.blez rs off) s = .next t ∨ exec (.bgtz rs off) s = .next t) → t.pc.toNat % 4 = s.pc.toNat % 4)

/-- For every state and target, jal completes, and in every later state that still holds the same R[31], jr $31 completes
with pc = the jal's pc + 4. [41_control.md §2 (R212)] -/
def Obligations.JalThenJrReturns : Prop :=
  ∀ (target : Target26) (s : State), ∃ t, exec (.jal target) s = .next t ∧
    ∀ u : State, u.readReg 31 = t.readReg 31 → ∃ v, exec (.jr 31) u = .next v ∧ v.pc = s.pc + 4#32

/-- For every state, base and displacement, unsigned(EA) is unsigned(x[rs]) + signed(imm16) modulo 2^32, as integers.
[42_loadstore.md §1 (R230)] -/
def Obligations.EffectiveAddressIsBasePlusOffsetWrapped : Prop :=
  ∀ (s : State) (rs : RegIdx) (imm : Imm16),
    ((s.effectiveAddress rs imm).toNat : Int) = ((s.readReg rs).toNat + imm.toInt) % 4294967296

/-- Every word with op 0x20, 0x24, 0x21, 0x25, 0x23 is that load with its fields. With EA the model's effective address at
the state before the load, and the bytes in bounds: each completes, rt receives the sign- or zero-extended big-endian
value (nothing if rt = 0), pc advances by 4, nothing else changes (misaligned accesses are the spec's D9, reading the
base first D4). [42_loadstore.md §1, §2 (R230 to R235), 20_memory.md §4 (R88), 92_eei_decisions.md D4, D9] -/
def Obligations.LoadsCompleteInBounds : Prop :=
  EncodedByOp 0x20#6 (fun w => .lb (rtField w) (rsField w) (imm16Field w)) ∧
  EncodedByOp 0x24#6 (fun w => .lbu (rtField w) (rsField w) (imm16Field w)) ∧
  EncodedByOp 0x21#6 (fun w => .lh (rtField w) (rsField w) (imm16Field w)) ∧
  EncodedByOp 0x25#6 (fun w => .lhu (rtField w) (rsField w) (imm16Field w)) ∧
  EncodedByOp 0x23#6 (fun w => .lw (rtField w) (rsField w) (imm16Field w)) ∧
  ∀ (rt rs : RegIdx) (imm : Imm16) (s : State) (a : Nat), a = (s.effectiveAddress rs imm).toNat →
    (a < s.mem.size →
      (∃ t, exec (.lb rt rs imm) s = .next t ∧ WritesReg s t rt ((s.mem.readByte a).signExtend 32) (s.pc + 4#32)) ∧
      (∃ t, exec (.lbu rt rs imm) s = .next t ∧ WritesReg s t rt ((s.mem.readByte a).setWidth 32) (s.pc + 4#32))) ∧
    (a + 1 < s.mem.size →
      (∃ t, exec (.lh rt rs imm) s = .next t ∧
        WritesReg s t rt ((s.mem.readByte a ++ s.mem.readByte (a + 1)).signExtend 32) (s.pc + 4#32)) ∧
      (∃ t, exec (.lhu rt rs imm) s = .next t ∧
        WritesReg s t rt ((s.mem.readByte a ++ s.mem.readByte (a + 1)).setWidth 32) (s.pc + 4#32))) ∧
    (a + 3 < s.mem.size →
      ∃ t, exec (.lw rt rs imm) s = .next t ∧
        WritesReg s t rt (s.mem.readByte a ++ s.mem.readByte (a + 1) ++ s.mem.readByte (a + 2) ++ s.mem.readByte (a + 3))
          (s.pc + 4#32))

/-- Every word with op 0x28, 0x29, 0x2B is that store with its fields. With EA the model's effective address and the bytes
in bounds: each completes, the bytes at EA are the low bytes of x[rt] in big-endian order, every other byte, every
register and everything else is unchanged, pc advances by 4 (misaligned accesses are D9). [42_loadstore.md §1, §3 (R230,
R237 to R239), 92_eei_decisions.md D9] -/
def Obligations.StoresCompleteInBounds : Prop :=
  EncodedByOp 0x28#6 (fun w => .sb (rtField w) (rsField w) (imm16Field w)) ∧
  EncodedByOp 0x29#6 (fun w => .sh (rtField w) (rsField w) (imm16Field w)) ∧
  EncodedByOp 0x2B#6 (fun w => .sw (rtField w) (rsField w) (imm16Field w)) ∧
  ∀ (rt rs : RegIdx) (imm : Imm16) (s : State) (a : Nat), a = (s.effectiveAddress rs imm).toNat →
    (a < s.mem.size → ∃ t, exec (.sb rt rs imm) s = .next t ∧ WritesMem s t a 1 ∧
      t.mem.readByte a = (s.readReg rt).extractLsb' 0 8) ∧
    (a + 1 < s.mem.size → ∃ t, exec (.sh rt rs imm) s = .next t ∧ WritesMem s t a 2 ∧
      t.mem.readByte a = (s.readReg rt).extractLsb' 8 8 ∧ t.mem.readByte (a + 1) = (s.readReg rt).extractLsb' 0 8) ∧
    (a + 3 < s.mem.size → ∃ t, exec (.sw rt rs imm) s = .next t ∧ WritesMem s t a 4 ∧
      t.mem.readByte a = (s.readReg rt).extractLsb' 24 8 ∧ t.mem.readByte (a + 1) = (s.readReg rt).extractLsb' 16 8 ∧
      t.mem.readByte (a + 2) = (s.readReg rt).extractLsb' 8 8 ∧ t.mem.readByte (a + 3) = (s.readReg rt).extractLsb' 0 8)

/-- For every state and each of the five loads (also for rt = 0) and three stores: when EA + n - 1, without wrap, is not
below MEM_SIZE, exec answers a next state that differs only in status: halted, MemoryFault, the instruction's pc, its
word and addr = EA; a load writes no register, a store no byte, not even those in bounds, and MEM does not grow (D11,
D12, D13). [42_loadstore.md §2 to §4 (R231 to R235, R237 to R239, R241), 60_exceptions.md §1 (R400, R402, R404),
92_eei_decisions.md D11, D12, D13] -/
def Obligations.AccessesOutOfBoundsHaltPrecisely : Prop :=
  ∀ (rt rs : RegIdx) (imm : Imm16) (s : State) (ea : Word) (i : Instr), ea = s.effectiveAddress rs imm →
    (s.mem.size ≤ ea.toNat ∧ (i = .lb rt rs imm ∨ i = .lbu rt rs imm ∨ i = .sb rt rs imm) ∨
     s.mem.size ≤ ea.toNat + 1 ∧ (i = .lh rt rs imm ∨ i = .lhu rt rs imm ∨ i = .sh rt rs imm) ∨
     s.mem.size ≤ ea.toNat + 3 ∧ (i = .lw rt rs imm ∨ i = .sw rt rs imm)) →
    ∃ t, exec i s = .next t ∧ HaltsWith s t ⟨.memoryFault, s.pc, some (encode s.sltuFunct i), some ea⟩

/-- For every state with the access in bounds: sw then lw gives the word of the store's source in rd, sh then lh and lhu
give its low halfword sign- and zero-extended, sb then lb and lbu its low byte; for rd = 0 the loads complete as well
and rd reads 0; no alignment is needed (D9). [20_memory.md §6 (R93), 95_test_vectors.md §1.2, invariants 3 and 4,
92_eei_decisions.md D9] -/
def Obligations.StoreThenLoadReturnsTheValue : Prop :=
  ∀ (rt rd rs : RegIdx) (imm : Imm16) (s : State) (a : Nat), a = (s.effectiveAddress rs imm).toNat →
    (a + 3 < s.mem.size → ∃ t u, exec (.sw rt rs imm) s = .next t ∧ exec (.lw rd rs imm) t = .next u ∧
      u.readReg rd = if rd = 0 then 0#32 else s.readReg rt) ∧
    (a + 1 < s.mem.size → ∃ t u v, exec (.sh rt rs imm) s = .next t ∧ exec (.lh rd rs imm) t = .next u ∧
      exec (.lhu rd rs imm) t = .next v ∧
      u.readReg rd = (if rd = 0 then 0#32 else ((s.readReg rt).setWidth 16).signExtend 32) ∧
      v.readReg rd = if rd = 0 then 0#32 else ((s.readReg rt).setWidth 16).setWidth 32) ∧
    (a < s.mem.size → ∃ t u v, exec (.sb rt rs imm) s = .next t ∧ exec (.lb rd rs imm) t = .next u ∧
      exec (.lbu rd rs imm) t = .next v ∧
      u.readReg rd = (if rd = 0 then 0#32 else ((s.readReg rt).setWidth 8).signExtend 32) ∧
      v.readReg rd = if rd = 0 then 0#32 else ((s.readReg rt).setWidth 8).setWidth 32)

/-- For every state in which sw stores at the address pc + 4 and the four bytes are in bounds, sw completes and the state
after it fetches exactly the stored word. [20_memory.md §6 (R96), 70_reset_and_hazards.md §3 (R463)] -/
def Obligations.StoredWordIsFetchedByTheNextStep : Prop :=
  ∀ (rt rs : RegIdx) (imm : Imm16) (s : State), s.effectiveAddress rs imm = s.pc + 4#32 →
    (s.pc + 4#32).toNat + 3 < s.mem.size →
    ∃ t, exec (.sw rt rs imm) s = .next t ∧ t.fetch = some (s.readReg rt)

/-- Every word with op 0x0F is lui of its rt and imm16; it completes in every state, rt receives imm16 in its upper half and
zeros below (nothing if rt = 0), pc advances by 4, nothing else changes, and no memory is accessed. [R236] -/
def Obligations.LuiLoadsTheUpperHalf : Prop :=
  EncodedByOp 0x0F#6 (fun w => .lui (rtField w) (imm16Field w)) ∧
  ∀ (rt : RegIdx) (imm : Imm16) (s : State), ∃ t, exec (.lui rt imm) s = .next t ∧
    WritesReg s t rt (imm.setWidth 32 <<< 16) (s.pc + 4#32)

/-- Every word with op 0x09 is addiu, with op 0x0E xori, with op 0 and funct 0x21 addu of its fields; each completes in
every state; rt receives the word of x[rs] plus the signed imm16 modulo 2^32, or x[rs] ^ zext_16(imm16), rd the word of
x[rs] + x[rt] modulo 2^32 (nothing for R[0]); pc advances by 4, nothing else changes. [R261, R263, R287] -/
def Obligations.AddiuXoriAndAddu : Prop :=
  EncodedByOp 0x09#6 (fun w => .addiu (rtField w) (rsField w) (imm16Field w)) ∧
  EncodedByOp 0x0E#6 (fun w => .xori (rtField w) (rsField w) (imm16Field w)) ∧
  EncodedByFunct 0x21#6 (fun w => .addu (rdField w) (rsField w) (rtField w)) ∧
  (∀ (rt rs : RegIdx) (imm : Imm16) (s : State),
    (∃ t, exec (.addiu rt rs imm) s = .next t ∧ WritesReg s t rt (s.readReg rs + imm.signExtend 32) (s.pc + 4#32)) ∧
    (∃ t, exec (.xori rt rs imm) s = .next t ∧ WritesReg s t rt (s.readReg rs ^^^ imm.setWidth 32) (s.pc + 4#32))) ∧
  ∀ (rd rs rt : RegIdx) (s : State), ∃ t, exec (.addu rd rs rt) s = .next t ∧
    WritesReg s t rd (BitVec.ofNat 32 ((s.readReg rs).toNat + (s.readReg rt).toNat)) (s.pc + 4#32)

/-- Every word with op 0x0D is ori of its fields (the spec's decision D1); it completes in every state, rt receives x[rs] |
zext_16(imm16) (nothing if rt = 0), pc advances by 4, nothing else changes. For every state, lui rt, imm and then ori
rt, rt, imm2 complete, and rt holds imm in its upper and imm2 in its lower half; for rt = 0 it reads 0. [43_immediate.md
(R262), 95_test_vectors.md §1.2, invariant 10, 42_loadstore.md §2 (R236), 92_eei_decisions.md D1] -/
def Obligations.OriAndTheLuiOriConstant : Prop :=
  EncodedByOp 0x0D#6 (fun w => .ori (rtField w) (rsField w) (imm16Field w)) ∧
  (∀ (rt rs : RegIdx) (imm : Imm16) (s : State), ∃ t, exec (.ori rt rs imm) s = .next t ∧
    WritesReg s t rt (s.readReg rs ||| imm.setWidth 32) (s.pc + 4#32)) ∧
  ∀ (rt : RegIdx) (hi lo : Imm16) (s : State), ∃ t u, exec (.lui rt hi) s = .next t ∧ exec (.ori rt rt lo) t = .next u ∧
    u.readReg rt = if rt = 0 then 0#32 else hi ++ lo

/-- Every word with op 0 and funct 0, 2, 3 is that shift of its rd, rt, shamt; each completes in every state, rd receives
the shifted x[rt] (nothing if rd = 0), pc advances by 4, nothing else changes. [R280, R281, R282] -/
def Obligations.ConstantShifts : Prop :=
  EncodedByFunct 0x00#6 (fun w => .sll (rdField w) (rtField w) (shamtField w)) ∧
  EncodedByFunct 0x02#6 (fun w => .srl (rdField w) (rtField w) (shamtField w)) ∧
  EncodedByFunct 0x03#6 (fun w => .sra (rdField w) (rtField w) (shamtField w)) ∧
  ∀ (rd rt : RegIdx) (shamt : Shamt) (s : State),
    (∃ t, exec (.sll rd rt shamt) s = .next t ∧ WritesReg s t rd (s.readReg rt <<< shamt.toNat) (s.pc + 4#32)) ∧
    (∃ t, exec (.srl rd rt shamt) s = .next t ∧ WritesReg s t rd (s.readReg rt >>> shamt.toNat) (s.pc + 4#32)) ∧
    (∃ t, exec (.sra rd rt shamt) s = .next t ∧ WritesReg s t rd ((s.readReg rt).sshiftRight shamt.toNat) (s.pc + 4#32))

/-- Every word with op 0 and funct 4, 6, 7 is that shift of its rd, rt, rs; each completes in every state, rd receives x[rt]
shifted by the low five bits of x[rs], read before any write (nothing if rd = 0), pc advances by 4, nothing else
changes. [R283, R284, R285] -/
def Obligations.VariableShiftsUseFiveBits : Prop :=
  EncodedByFunct 0x04#6 (fun w => .sllv (rdField w) (rtField w) (rsField w)) ∧
  EncodedByFunct 0x06#6 (fun w => .srlv (rdField w) (rtField w) (rsField w)) ∧
  EncodedByFunct 0x07#6 (fun w => .srav (rdField w) (rtField w) (rsField w)) ∧
  ∀ (rd rt rs : RegIdx) (s : State),
    (∃ t, exec (.sllv rd rt rs) s = .next t ∧
      WritesReg s t rd (s.readReg rt <<< ((s.readReg rs).toNat % 32)) (s.pc + 4#32)) ∧
    (∃ t, exec (.srlv rd rt rs) s = .next t ∧
      WritesReg s t rd (s.readReg rt >>> ((s.readReg rs).toNat % 32)) (s.pc + 4#32)) ∧
    (∃ t, exec (.srav rd rt rs) s = .next t ∧
      WritesReg s t rd ((s.readReg rt).sshiftRight ((s.readReg rs).toNat % 32)) (s.pc + 4#32))

/-- Every word with op 0x08 is addi, with op 0 and funct 0x20, 0x22, 0x23 add, sub, subu of its fields; each completes in
every state, also on overflow; the destination receives the word of the exact signed sum or difference x[rs] - x[rt],
for subu of the exact unsigned difference (D5; the operand order of sub and subu is marked by the spec as general
knowledge), nothing for R[0]; pc advances by 4, nothing else changes. [43_immediate.md (R260), 44_alu.md §2 (R286, R288,
R289), 60_exceptions.md §1 (R405), 92_eei_decisions.md D5, 93_implementation_defined.md §2 (operand order of sub and
subu)] -/
def Obligations.SignedArithmeticNeverTraps : Prop :=
  EncodedByOp 0x08#6 (fun w => .addi (rtField w) (rsField w) (imm16Field w)) ∧
  EncodedByFunct 0x20#6 (fun w => .add (rdField w) (rsField w) (rtField w)) ∧
  EncodedByFunct 0x22#6 (fun w => .sub (rdField w) (rsField w) (rtField w)) ∧
  EncodedByFunct 0x23#6 (fun w => .subu (rdField w) (rsField w) (rtField w)) ∧
  (∀ (rt rs : RegIdx) (imm : Imm16) (s : State), ∃ t, exec (.addi rt rs imm) s = .next t ∧
    WritesReg s t rt (BitVec.ofInt 32 ((s.readReg rs).toInt + imm.toInt)) (s.pc + 4#32)) ∧
  ∀ (rd rs rt : RegIdx) (s : State),
    (∃ t, exec (.add rd rs rt) s = .next t ∧
      WritesReg s t rd (BitVec.ofInt 32 ((s.readReg rs).toInt + (s.readReg rt).toInt)) (s.pc + 4#32)) ∧
    (∃ t, exec (.sub rd rs rt) s = .next t ∧
      WritesReg s t rd (BitVec.ofInt 32 ((s.readReg rs).toInt - (s.readReg rt).toInt)) (s.pc + 4#32)) ∧
    (∃ t, exec (.subu rd rs rt) s = .next t ∧
      WritesReg s t rd (BitVec.ofInt 32 (((s.readReg rs).toNat : Int) - (s.readReg rt).toNat)) (s.pc + 4#32))

/-- Every word with op 0 and funct 0x24 to 0x27 is that operation, and with funct 0x2A slt, of its rd, rs, rt; each
completes in every state, rd receives the bitwise result, or 1 or 0 by the signed comparison (nothing if rd = 0), pc
advances by 4, nothing else changes. [R290, R291, R292, R293, R294] -/
def Obligations.LogicAndSignedComparison : Prop :=
  EncodedByFunct 0x24#6 (fun w => .and (rdField w) (rsField w) (rtField w)) ∧
  EncodedByFunct 0x25#6 (fun w => .or (rdField w) (rsField w) (rtField w)) ∧
  EncodedByFunct 0x26#6 (fun w => .xor (rdField w) (rsField w) (rtField w)) ∧
  EncodedByFunct 0x27#6 (fun w => .nor (rdField w) (rsField w) (rtField w)) ∧
  EncodedByFunct 0x2A#6 (fun w => .slt (rdField w) (rsField w) (rtField w)) ∧
  ∀ (rd rs rt : RegIdx) (s : State),
    (∃ t, exec (.and rd rs rt) s = .next t ∧ WritesReg s t rd (s.readReg rs &&& s.readReg rt) (s.pc + 4#32)) ∧
    (∃ t, exec (.or rd rs rt) s = .next t ∧ WritesReg s t rd (s.readReg rs ||| s.readReg rt) (s.pc + 4#32)) ∧
    (∃ t, exec (.xor rd rs rt) s = .next t ∧ WritesReg s t rd (s.readReg rs ^^^ s.readReg rt) (s.pc + 4#32)) ∧
    (∃ t, exec (.nor rd rs rt) s = .next t ∧ WritesReg s t rd (~~~ (s.readReg rs ||| s.readReg rt)) (s.pc + 4#32)) ∧
    (∃ t, exec (.slt rd rs rt) s = .next t ∧
      WritesReg s t rd (if (s.readReg rs).toInt < (s.readReg rt).toInt then 1#32 else 0#32) (s.pc + 4#32))

/-- With SLTU_FUNCT = 0x29 every word with op 0 and funct 0x29 is sltu and funct 0x2B is a DecodeError, with 0x2B the
reverse (the parameter is the spec's decision D2); sltu completes in every state, rd receives 1 or 0 by the unsigned
comparison (nothing if rd = 0), pc advances by 4, nothing else changes. [44_alu.md §4 (R295), 30_encoding.md §3 (R130),
92_eei_decisions.md D2] -/
def Obligations.SltuComparesUnsignedAtItsFunct : Prop :=
  (∀ w : Word, opField w = 0#6 → functField w = 0x29#6 →
    decode .f29 w = .ok (.sltu (rdField w) (rsField w) (rtField w)) ∧ decode .f2B w = .error (.unknownFunct 0x29#6)) ∧
  (∀ w : Word, opField w = 0#6 → functField w = 0x2B#6 →
    decode .f2B w = .ok (.sltu (rdField w) (rsField w) (rtField w)) ∧ decode .f29 w = .error (.unknownFunct 0x2B#6)) ∧
  ∀ (rd rs rt : RegIdx) (s : State), ∃ t, exec (.sltu rd rs rt) s = .next t ∧
    WritesReg s t rd (if (s.readReg rs).toNat < (s.readReg rt).toNat then 1#32 else 0#32) (s.pc + 4#32)

/-- Every word with op 0 and funct 0x18 is mult and 0x19 multu of its rs, rt; each completes in every state; HI :: LO read
as a signed (mult) or unsigned (multu) 64-bit number is exactly the product of the operands read so; pc advances by 4,
no general register and nothing else changes. [R320, R321] -/
def Obligations.MultiplyGivesTheFullProduct : Prop :=
  EncodedByFunct 0x18#6 (fun w => .mult (rsField w) (rtField w)) ∧
  EncodedByFunct 0x19#6 (fun w => .multu (rsField w) (rtField w)) ∧
  ∀ (rs rt : RegIdx) (s : State),
    (∃ t, exec (.mult rs rt) s = .next t ∧ WritesHiLo s t t.hi t.lo ∧
      (t.hi ++ t.lo).toInt = (s.readReg rs).toInt * (s.readReg rt).toInt) ∧
    (∃ t, exec (.multu rs rt) s = .next t ∧ WritesHiLo s t t.hi t.lo ∧
      (t.hi ++ t.lo).toNat = (s.readReg rs).toNat * (s.readReg rt).toNat)

/-- For every state with a non-zero divisor, div completes with LO = word(q), HI = word(r) for the one pair of integers with
a = q*b + r, |r| < |b| and r zero or of the dividend's sign; HI reads as r, LO as q except for -2^31 / -1, where LO =
0x80000000 and HI = 0 (rounding D6, that corner D7); pc advances by 4, nothing else changes. [45_muldiv.md §2, §4 (R322,
R329), 92_eei_decisions.md D6, D7] -/
def Obligations.SignedDivideTruncatesTowardZero : Prop :=
  EncodedByFunct 0x1A#6 (fun w => .div (rsField w) (rtField w)) ∧
  ∀ (rs rt : RegIdx) (s : State), s.readReg rt ≠ 0#32 →
    ∃ t, ∃ q r : Int, exec (.div rs rt) s = .next t ∧ WritesHiLo s t (BitVec.ofInt 32 r) (BitVec.ofInt 32 q) ∧
      (s.readReg rs).toInt = q * (s.readReg rt).toInt + r ∧ r.natAbs < (s.readReg rt).toInt.natAbs ∧
      (0 < r → 0 < (s.readReg rs).toInt) ∧ (r < 0 → (s.readReg rs).toInt < 0) ∧ t.hi.toInt = r ∧
      (s.readReg rs = 0x80000000#32 ∧ s.readReg rt = 0xFFFFFFFF#32 → t.lo = 0x80000000#32 ∧ t.hi = 0#32) ∧
      (¬ (s.readReg rs = 0x80000000#32 ∧ s.readReg rt = 0xFFFFFFFF#32) → t.lo.toInt = q)

/-- For every state with a non-zero divisor, divu completes, and as unsigned numbers the dividend is LO times the divisor
plus HI, with HI below the divisor; pc advances by 4, nothing else changes. [45_muldiv.md §2 (R323)] -/
def Obligations.UnsignedDivideGivesQuotientAndRemainder : Prop :=
  EncodedByFunct 0x1B#6 (fun w => .divu (rsField w) (rtField w)) ∧
  ∀ (rs rt : RegIdx) (s : State), s.readReg rt ≠ 0#32 →
    ∃ t, exec (.divu rs rt) s = .next t ∧ WritesHiLo s t t.hi t.lo ∧
      (s.readReg rs).toNat = t.lo.toNat * (s.readReg rt).toNat + t.hi.toNat ∧ t.hi.toNat < (s.readReg rt).toNat

/-- For every state with a zero divisor, div and divu complete: pc advances by 4, status stays, no general register, no byte
of memory and no parameter changes, and HI and LO receive draws number n and n + 1, n being the count of draws before,
which becomes n + 2 (the draws as an opaque function of a count are the model's form, log 11). [45_muldiv.md §4 (R328),
60_exceptions.md §1 (R405), notes/assumptions/11.md] -/
def Obligations.DivideByZeroCompletesWithTwoDraws : Prop :=
  ∀ (rs rt : RegIdx) (s : State) (i : Instr), s.readReg rt = 0#32 → (i = .div rs rt ∨ i = .divu rs rt) →
    ∃ t, exec i s = .next t ∧ t.hi = Config.draw32 s.draws ∧ t.lo = Config.draw32 (s.draws + 1) ∧ t.draws = s.draws + 2 ∧
      SameRegs s t ∧ SameMem s t ∧ t.pc = s.pc + 4#32 ∧ t.status = s.status ∧ t.sltuFunct = s.sltuFunct ∧
      t.handler = s.handler ∧ t.choices = s.choices

/-- Every word with op 0 and funct 0x10 to 0x13 is mfhi, mthi, mflo, mtlo of its rd or rs; each completes in every state;
mfhi and mflo write HI or LO to rd (nothing if rd = 0), mthi and mtlo write x[rs] to HI or LO; pc advances by 4, nothing
else changes. [R324, R325, R326, R327] -/
def Obligations.MovesToAndFromHiLo : Prop :=
  EncodedByFunct 0x10#6 (fun w => .mfhi (rdField w)) ∧ EncodedByFunct 0x12#6 (fun w => .mflo (rdField w)) ∧
  EncodedByFunct 0x11#6 (fun w => .mthi (rsField w)) ∧ EncodedByFunct 0x13#6 (fun w => .mtlo (rsField w)) ∧
  ∀ (r : RegIdx) (s : State),
    (∃ t, exec (.mfhi r) s = .next t ∧ WritesReg s t r s.hi (s.pc + 4#32)) ∧
    (∃ t, exec (.mflo r) s = .next t ∧ WritesReg s t r s.lo (s.pc + 4#32)) ∧
    (∃ t, exec (.mthi r) s = .next t ∧ WritesHiLo s t (s.readReg r) s.lo) ∧
    (∃ t, exec (.mtlo r) s = .next t ∧ WritesHiLo s t s.hi (s.readReg r))

/-- Every word with op 0 and funct 0x0C is syscall with its bits 25:6. The default handler's outcomes at every state are
{Continue(s)} (D15; the form is log 6), and in every state in which the handler's outcomes are that, syscall completes,
whatever those bits, and only the pc changes, to pc + 4. [46_system.md (R340), 92_eei_decisions.md D15, 90_conflicts.md
C4, notes/assumptions/6.md] -/
def Obligations.DefaultSyscallAdvances : Prop :=
  EncodedByFunct 0x0C#6 (fun w => .syscall (codeField w)) ∧
  (∀ s : State, s.handler = Config.handler → s.outcomes = [.continueWith []]) ∧
  ∀ (code : BitVec 20) (s : State), s.outcomes = [.continueWith []] →
    ∃ t, exec (.syscall code) s = .next t ∧ WritesPc s t (s.pc + 4#32)

/-- For every state in which the outcome chosen from the handler's is Continue(s1), s1 being the state that its edits make
(form of log 7): syscall completes in s1 with pc = s1.pc + 4; status, parameters and draws are as before, and the
model's count of choices goes up by one if there were several outcomes (log 18, the model's form) (D15). [46_system.md
(R340), 00_scope.md §5 (R12), 92_eei_decisions.md D15, notes/assumptions/18.md] -/
def Obligations.ContinuingSyscallAppliesTheHandlerThenAdvances : Prop :=
  ∀ (code : BitVec 20) (s s1 : State) (edits : List HandlerEdit),
    s.chosenOutcome = some (.continueWith edits) → s1 = s.applyEdits edits →
    ∃ t, exec (.syscall code) s = .next t ∧ t.pc = s1.pc + 4#32 ∧ SameRegs s1 t ∧ SameHiLo s1 t ∧ SameMem s1 t ∧
      t.status = s.status ∧ t.sltuFunct = s.sltuFunct ∧ t.handler = s.handler ∧ t.draws = s.draws ∧
      t.choices = if 2 ≤ s.outcomes.length then s.choices + 1 else s.choices

/-- For every state in which the outcome chosen from the handler's is Terminate(s1), s1 being the state that its edits make
(form of log 7): syscall answers s1, its pc not advanced, halted with kind Terminated, the syscall's own pc and word, no
addr (D13, D15; the record's fields are log 9); the count of choices is as for a handler that continues (log 18).
[46_system.md (R340), 60_exceptions.md §1 (R400), 92_eei_decisions.md D13, D15, notes/assumptions/9.md,
notes/assumptions/18.md] -/
def Obligations.TerminatingSyscallHaltsWithoutAdvancing : Prop :=
  ∀ (code : BitVec 20) (s s1 : State) (edits : List HandlerEdit),
    s.chosenOutcome = some (.terminateWith edits) → s1 = s.applyEdits edits →
    ∃ t, exec (.syscall code) s = .next t ∧
      t.status = .halted ⟨.terminated, s.pc, some (encode s.sltuFunct (.syscall code)), none⟩ ∧ t.pc = s1.pc ∧
      SameRegs s1 t ∧ SameHiLo s1 t ∧ SameMem s1 t ∧ t.sltuFunct = s.sltuFunct ∧ t.handler = s.handler ∧
      t.draws = s.draws ∧ t.choices = if 2 ≤ s.outcomes.length then s.choices + 1 else s.choices

/-- For every state: a running machine that fetches a syscall while the handler's set of outcomes at that state is empty is
stuck; and whenever a step is no next state it is that one fault, at a syscall, with that set empty; no step is ever
refused. [46_system.md (R340), 92_eei_decisions.md D15] -/
def Obligations.OnlyAnEmptyOutcomeSetSticks : Prop :=
  (∀ (s : State) (w : Word) (code : BitVec 20), s.status = .running → s.fetch = some w →
    decode s.sltuFunct w = .ok (.syscall code) → s.outcomes = [] → step s = .fault .noHandlerOutcome) ∧
  (∀ (s : State) (r : Fault), step s = .fault r → r = .noHandlerOutcome ∧
    ∃ w code, s.fetch = some w ∧ decode s.sltuFunct w = .ok (.syscall code) ∧ s.outcomes = []) ∧
  ∀ (s : State) (r : Refusal), step s ≠ .refused r

/-- For all states s and s1 with memory in canonical form that agree on the stored R[0], MEM_SIZE, status, parameters and
counts of free inputs, some list of edits leads from s to s1: the model's form of a handler (log 7) leaves out no
outcome. [46_system.md (R340), 00_scope.md §5 (R12), notes/assumptions/7.md] -/
def Obligations.HandlerReachesEveryAllowedState : Prop :=
  ∀ s s1 : State, s.mem.wf = true → s1.mem.wf = true → s1.mem.size = s.mem.size → s1.regs[0] = s.regs[0] →
    s1.status = s.status → s1.sltuFunct = s.sltuFunct → s1.handler = s.handler → s1.draws = s.draws → s1.choices = s.choices →
    ∃ edits, s.applyEdits edits = s1

/-- For every state and every list of edits, the state they make reads R[0] as zero, keeps the stored R[0], MEM_SIZE,
status, parameters and counts of free inputs, reads every byte at or above MEM_SIZE as before, and has memory in
canonical form if it was (D15). [46_system.md (R340), 10_state.md §2, §6 (R42, R54), 92_eei_decisions.md D15] -/
def Obligations.HandlerCannotReachBeyondItsPowers : Prop :=
  ∀ (s : State) (edits : List HandlerEdit),
    (s.applyEdits edits).readReg 0 = 0#32 ∧ (s.applyEdits edits).regs[0] = s.regs[0] ∧
    (s.applyEdits edits).mem.size = s.mem.size ∧
    (∀ a, s.mem.size ≤ a → (s.applyEdits edits).mem.readByte a = s.mem.readByte a) ∧
    (s.applyEdits edits).status = s.status ∧ SameParams s (s.applyEdits edits) ∧
    (s.mem.wf = true → (s.applyEdits edits).mem.wf = true)

/-- State.new at every entry pc meets State.Inv (stored R[0] zero, memory in canonical form with MEM_SIZE at most 2^32-1, no
malformed halt record) and has SLTU_FUNCT = 0x29 and the default handler; State.reset is State.new at Config.entryPc
(the model's choice of entry pc, log 3) and meets it; loading any image that load accepts keeps it, in any state (that
load is a function on every state, so also on a loaded machine, is log 16). [70_reset_and_hazards.md §1 (R450, R451),
00_scope.md §4 (R9), 10_state.md §2, §6 (R42, R54), notes/assumptions/3.md, notes/assumptions/16.md] -/
def Obligations.ConstructionAndLoadMeetTheInvariant : Prop :=
  (∀ e : Word, (State.new e).Inv ∧ (State.new e).sltuFunct.code = 0x29#6 ∧
    (State.new e).handler = Config.handler) ∧
  State.reset = State.new Config.entryPc ∧ State.reset.Inv ∧
  ∀ (s t : State) (image : List Byte), s.Inv → s.load image = .ok t → t.Inv

/-- For every state that meets State.Inv and every step that answers a next state, that state meets State.Inv: R[0] is
stored as zero, MEM is in canonical form with MEM_SIZE at most 2^32-1, and a halt record has the fields R400 gives its
kind, pc where it must be the machine's pc, and never the kind RegisterIndexFault. [10_state.md §2, §6 (R42, R48, R54),
60_exceptions.md §1 (R400, R403, R404), 42_loadstore.md §4 (R241)] -/
def Obligations.EveryStepKeepsTheInvariant : Prop :=
  ∀ s t : State, s.Inv → step s = .next t → t.Inv

/-- For all states s and t with t reached from s by any number of steps: MEM_SIZE, SLTU_FUNCT and the handler are those of
s, so the same handler answers at every syscall without end; if s meets the invariant so does t; and no machine launched
with any entry pc and image ever halts with RegisterIndexFault. [10_state.md §6 (R54), 70_reset_and_hazards.md §1
(R452), 60_exceptions.md §1 (R403), notes/assumptions/6.md, notes/assumptions/10.md] -/
def Obligations.EveryRunKeepsInvariantSizeAndParameters : Prop :=
  ∀ s t : State, Reaches s t → t.mem.size = s.mem.size ∧ t.sltuFunct = s.sltuFunct ∧ t.handler = s.handler ∧
    (s.Inv → t.Inv) ∧
    (∀ e image, State.launch e image = .ok s → ∀ r, t.status = .halted r → r.kind ≠ .registerIndexFault)

/-- In every state R[0] reads as 0, writing it changes nothing, and whatever instruction exec runs to a next state, a
syscall with any handler among them, R[0] reads 0 there and its stored word is untouched (that a word is stored for R[0]
is the model's form, log 14). [10_state.md §2 (R42), 46_system.md (R340), notes/assumptions/14.md] -/
def Obligations.ZeroRegisterStaysZero : Prop :=
  ∀ s : State, s.readReg 0 = 0#32 ∧ (∀ v, s.writeReg 0 v = s) ∧
    ∀ (i : Instr) (t : State), exec i s = .next t → t.readReg 0 = 0#32 ∧ t.regs[0] = s.regs[0]

/-- For every instruction, state and next state: MEM_SIZE, SLTU_FUNCT and the handler are unchanged; and unless the
instruction is syscall, every general register other than the destination of R44 reads as before, HI is unchanged unless
it is mult, multu, div, divu or mthi, LO unless it is one of the first four or mtlo, and MEM is exactly as before unless
it is sb, sh or sw, after which every byte reads as before outside the 1, 2 or 4 bytes from the model's effective
address at the state before the store (R44 is the spec's own derivation). [10_state.md §2, §4 (R44, R51), 20_memory.md
§4 (R88), 42_loadstore.md §1, §4 (R230, R241)] -/
def Obligations.WritesFollowTheTables : Prop :=
  ∀ (i : Instr) (s t : State), exec i s = .next t →
    t.mem.size = s.mem.size ∧ t.sltuFunct = s.sltuFunct ∧ t.handler = s.handler ∧
    (i.isSyscall = false →
      (∀ k, i.destination ≠ some k → t.readReg k = s.readReg k) ∧
      (i.writesHi = false → t.hi = s.hi) ∧ (i.writesLo = false → t.lo = s.lo) ∧
      (i.isStore = false → t.mem = s.mem)) ∧
    ∀ rt rs imm,
      (i = .sb rt rs imm → SameMemOutside s t (s.effectiveAddress rs imm).toNat 1) ∧
      (i = .sh rt rs imm → SameMemOutside s t (s.effectiveAddress rs imm).toNat 2) ∧
      (i = .sw rt rs imm → SameMemOutside s t (s.effectiveAddress rs imm).toNat 4)

/-- For every instruction but mfhi, mflo and syscall and every two states that differ only in HI and LO: if one has a next
state so has the other, and the two agree on every register, pc, memory, status, parameter and count of free inputs. A
syscall is left out because R51 and R340 give its handler HI and LO to read. [10_state.md §4 (R51), 46_system.md (R340)] -/
def Obligations.HiLoAreReadOnlyByTheirMoves : Prop :=
  ∀ (i : Instr) (s t : State) (h l : Word), i.readsHiLo = false → i.isSyscall = false → exec i s = .next t →
    ∃ u, exec i ((s.setHi h).setLo l) = .next u ∧ SameRegs t u ∧ u.pc = t.pc ∧ SameMem t u ∧ u.status = t.status ∧
      SameParams t u

/-- For every instruction that is neither a control transfer nor syscall and every running state: if exec answers a next
state that still runs, its pc is pc + 4 modulo 2^32; if it answers one that is halted, its pc is unchanged.
[41_control.md §2 (R209), 95_test_vectors.md §1.2, invariant 2] -/
def Obligations.PcAdvancesByFourOutsideTransfers : Prop :=
  ∀ (i : Instr) (s t : State), i.isControlTransfer = false → i.isSyscall = false → s.status = .running → exec i s = .next t →
    (t.status = .running → t.pc = s.pc + 4#32) ∧ (t.status ≠ .running → t.pc = s.pc)

/-- For every instruction, every running state and every next state that is halted with a record: the kind is MemoryFault
and the instruction a load or store, or the kind is Terminated and the instruction syscall; so DecodeError comes from
the decode stage alone, and arithmetic never halts. [60_exceptions.md §1 (R401 to R403, R405), 46_system.md (R340)] -/
def Obligations.OnlyLoadsStoresAndSyscallHalt : Prop :=
  ∀ (i : Instr) (s t : State) (r : HaltRecord), s.status = .running → exec i s = .next t → t.status = .halted r →
    (r.kind = .memoryFault ∧ (i.isLoad = true ∨ i.isStore = true)) ∨ (r.kind = .terminated ∧ i.isSyscall = true)

/-- For every running state and every step whose next state is halted with a kind other than Terminated, that state is the
state before the step with only the status replaced: registers, HI, LO, PC, every byte of MEM, parameters and draws are
the same (the spec's decision D12). [60_exceptions.md §1, §3 (R404, R411), 92_eei_decisions.md D12] -/
def Obligations.ErrorsArePrecise : Prop :=
  ∀ (s t : State) (r : HaltRecord), s.status = .running → step s = .next t → t.status = .halted r → r.kind ≠ .terminated →
    t = s.setStatus (.halted r)

/-- For every running state and every step whose next state is halted with a record: the record's pc is the pc of the step;
its word is exactly the fetched word, or absent when the fetch failed; and it has an address exactly when its kind is
MemoryFault, namely the pc when the fetch failed (D13; log 9 for Terminated). [60_exceptions.md §1 (R400, R402),
92_eei_decisions.md D13, notes/assumptions/9.md] -/
def Obligations.HaltRecordNamesPcWordAndAddress : Prop :=
  ∀ (s t : State) (r : HaltRecord), s.status = .running → step s = .next t → t.status = .halted r →
    r.pc = s.pc ∧ r.word = s.fetch ∧ (r.addr.isSome = true ↔ r.kind = .memoryFault) ∧
    (s.fetch = none → r.addr = some s.pc)

/-- An injected handler's outcomes are those that the relation SYSCALL, of which the model fixes nothing (log 6), gives at
the architectural state handed over: the registers as they read, HI, LO, PC, MEM. A syscall that completes does so in an
outcome of that set, the handler staying the same; it has no outcome only if the set is empty; and each outcome of the
set is taken by some choice (the choice as an opaque function of a count is the model's form, log 18). [00_scope.md §4,
§5 (R9, R12), 46_system.md (R340), 92_eei_decisions.md D15, notes/assumptions/6.md, notes/assumptions/18.md] -/
def Obligations.SyscallChoosesAmongTheHandlersOutcomes : Prop :=
  (∀ s : State, s.handler = .injected → s.outcomes = Config.syscall s.arch) ∧
  (∀ (s : State) (k : RegIdx), s.arch.regs[k] = s.readReg k ∧ s.arch.hi = s.hi ∧ s.arch.lo = s.lo ∧ s.arch.pc = s.pc ∧
    s.arch.mem = s.mem) ∧
  (∀ (code : BitVec 20) (s t : State), exec (.syscall code) s = .next t →
    t.handler = s.handler ∧ ∃ o ∈ s.outcomes, s.chosenOutcome = some o ∧
      t = s.countChoice.finishSyscall (encode s.sltuFunct (.syscall code)) o) ∧
  (∀ s : State, s.chosenOutcome = none ↔ s.outcomes = []) ∧
  ∀ (outcomes : List HandlerOutcome) (o : HandlerOutcome), o ∈ outcomes → ∃ n, chooseFrom outcomes n = some o
end

