-- ==== Sys2Proof/Laws/Decode.lean ====
section
/-! SUPPORT. The fields of an encoded word, and words put together again from their fields (spec/30_encoding.md R121 to R124). -/

namespace Sys2Proof

/-! ### The fields of an R-type word -/

section
variable (rs rt rd : RegIdx) (sh : Shamt) (fn : BitVec 6)

@[simp] theorem opField_rWord : opField (rWord rs rt rd sh fn) = 0#6 := by
  unfold opField rWord
  simp (disch := decide) only [BitVec.extractLsb'_append_eq_of_le]
  simp

@[simp] theorem rsField_rWord : rsField (rWord rs rt rd sh fn) = rs := by
  unfold rsField rWord
  simp (disch := decide) only [BitVec.extractLsb'_append_eq_of_le, BitVec.extractLsb'_append_eq_of_add_le]
  simp [regBits]

@[simp] theorem rtField_rWord : rtField (rWord rs rt rd sh fn) = rt := by
  unfold rtField rWord
  simp (disch := decide) only [BitVec.extractLsb'_append_eq_of_le, BitVec.extractLsb'_append_eq_of_add_le]
  simp [regBits]

@[simp] theorem rdField_rWord : rdField (rWord rs rt rd sh fn) = rd := by
  unfold rdField rWord
  simp (disch := decide) only [BitVec.extractLsb'_append_eq_of_le, BitVec.extractLsb'_append_eq_of_add_le]
  simp [regBits]

@[simp] theorem shamtField_rWord : shamtField (rWord rs rt rd sh fn) = sh := by
  unfold shamtField rWord
  simp (disch := decide) only [BitVec.extractLsb'_append_eq_of_le, BitVec.extractLsb'_append_eq_of_add_le]
  simp

@[simp] theorem functField_rWord : functField (rWord rs rt rd sh fn) = fn := by
  unfold functField rWord
  simp (disch := decide) only [BitVec.extractLsb'_append_eq_of_add_le]
  simp

end

/-! ### The fields of an I-type word -/

section
variable (op : BitVec 6) (rs rt : RegIdx) (imm : Imm16)

@[simp] theorem opField_iWord : opField (iWord op rs rt imm) = op := by
  unfold opField iWord
  simp (disch := decide) only [BitVec.extractLsb'_append_eq_of_le]
  simp

@[simp] theorem rsField_iWord : rsField (iWord op rs rt imm) = rs := by
  unfold rsField iWord
  simp (disch := decide) only [BitVec.extractLsb'_append_eq_of_le, BitVec.extractLsb'_append_eq_of_add_le]
  simp [regBits]

@[simp] theorem rtField_iWord : rtField (iWord op rs rt imm) = rt := by
  unfold rtField iWord
  simp (disch := decide) only [BitVec.extractLsb'_append_eq_of_le, BitVec.extractLsb'_append_eq_of_add_le]
  simp [regBits]

@[simp] theorem imm16Field_iWord : imm16Field (iWord op rs rt imm) = imm := by
  unfold imm16Field iWord
  simp (disch := decide) only [BitVec.extractLsb'_append_eq_of_add_le]
  simp

end

/-! ### The fields of a J-type word and of a `syscall` -/

section
variable (op : BitVec 6) (target : Target26) (code : BitVec 20)

@[simp] theorem opField_jWord : opField (jWord op target) = op := by
  unfold opField jWord
  simp (disch := decide) only [BitVec.extractLsb'_append_eq_of_le]
  simp

@[simp] theorem target26Field_jWord : target26Field (jWord op target) = target := by
  unfold target26Field jWord
  simp (disch := decide) only [BitVec.extractLsb'_append_eq_of_add_le]
  simp

@[simp] theorem opField_syscallWord : opField (syscallWord code) = 0#6 := by
  unfold opField syscallWord
  simp (disch := decide) only [BitVec.extractLsb'_append_eq_of_le]
  simp

@[simp] theorem codeField_syscallWord : codeField (syscallWord code) = code := by
  unfold codeField syscallWord
  simp (disch := decide) only [BitVec.extractLsb'_append_eq_of_le, BitVec.extractLsb'_append_eq_of_add_le]
  simp

@[simp] theorem functField_syscallWord : functField (syscallWord code) = 0x0C#6 := by
  unfold functField syscallWord
  simp (disch := decide) only [BitVec.extractLsb'_append_eq_of_add_le]
  simp

end

/-! ### A word from its fields -/

@[simp] theorem regBits_rsField (w : Word) : regBits (rsField w) = w.extractLsb' 21 5 := rfl

@[simp] theorem regBits_rtField (w : Word) : regBits (rtField w) = w.extractLsb' 16 5 := rfl

@[simp] theorem regBits_rdField (w : Word) : regBits (rdField w) = w.extractLsb' 11 5 := rfl

@[simp] theorem regBits_zero : regBits 0 = 0#5 := rfl

/-- An I-type word is the word its fields were taken from (R123). -/
theorem iWord_fields (w : Word) : iWord (opField w) (rsField w) (rtField w) (imm16Field w) = w := by
  apply BitVec.eq_of_getLsbD_eq
  intro i hi
  simp only [iWord, opField, regBits_rsField, regBits_rtField, imm16Field, BitVec.getLsbD_append, BitVec.getLsbD_extractLsb']
  split
  · simp_all
  split
  · simp [show i - 16 < 5 by omega, show 16 + (i - 16) = i by omega]
  split
  · simp [show i - 16 - 5 < 5 by omega, show 21 + (i - 16 - 5) = i by omega]
  · simp [show i - 16 - 5 - 5 < 6 by omega, show 26 + (i - 16 - 5 - 5) = i by omega]

/-- A J-type word is the word its fields were taken from (R124). -/
theorem jWord_fields (w : Word) : jWord (opField w) (target26Field w) = w := by
  apply BitVec.eq_of_getLsbD_eq
  intro i hi
  simp only [jWord, opField, target26Field, BitVec.getLsbD_append, BitVec.getLsbD_extractLsb']
  split
  · simp_all
  · simp [show i - 26 < 6 by omega, show 26 + (i - 26) = i by omega]

/-- A `syscall` word is the word its fields were taken from (R340). -/
theorem syscallWord_fields (w : Word) (hop : opField w = 0#6) (hfn : functField w = 0x0C#6) : syscallWord (codeField w) = w := by
  unfold syscallWord
  rw [← hop, ← hfn]
  apply BitVec.eq_of_getLsbD_eq
  intro i hi
  simp only [opField, codeField, functField, BitVec.getLsbD_append, BitVec.getLsbD_extractLsb']
  split
  · simp_all
  split
  · simp [show i - 6 < 20 by omega, show 6 + (i - 6) = i by omega]
  · simp [show i - 6 - 20 < 6 by omega, show 26 + (i - 6 - 20) = i by omega]

/-- The op bits of a word, in place. -/
theorem and_opMask (w : Word) : w &&& 0xFC000000#32 = opField w ++ 0#26 := by
  apply BitVec.eq_of_getLsbD_eq
  intro i hi
  simp only [opField, BitVec.getLsbD_append, BitVec.getLsbD_and, BitVec.getLsbD_extractLsb']
  interval_cases i <;> simp

/-- The op and funct bits of a word, in place. -/
theorem and_opFunctMask (w : Word) : w &&& 0xFC00003F#32 = opField w ++ 0#20 ++ functField w := by
  apply BitVec.eq_of_getLsbD_eq
  intro i hi
  simp only [opField, functField, BitVec.getLsbD_append, BitVec.getLsbD_and, BitVec.getLsbD_extractLsb']
  interval_cases i <;> simp

/-! ### Bytes -/

/-- The bytes of a word, put together again, are the word. -/
theorem beWord_extract (v : Word) :
    beWord (v.extractLsb' 24 8) (v.extractLsb' 16 8) (v.extractLsb' 8 8) (v.extractLsb' 0 8) = v := by
  apply BitVec.eq_of_getLsbD_eq
  intro i hi
  simp only [beWord, BitVec.getLsbD_append, BitVec.getLsbD_extractLsb']
  split
  · simp_all
  · split
    · simp [show i - 8 < 8 by omega, show 8 + (i - 8) = i by omega]
    · split
      · simp [show i - 8 - 8 < 8 by omega, show 16 + (i - 8 - 8) = i by omega]
      · simp [show i - 8 - 8 - 8 < 8 by omega, show 24 + (i - 8 - 8 - 8) = i by omega]

/-- The bytes of a halfword, put together again, are the low half of the word. -/
theorem beHalf_extract (v : Word) : beHalf (v.extractLsb' 8 8) (v.extractLsb' 0 8) = v.setWidth 16 := by
  apply BitVec.eq_of_getLsbD_eq
  intro i hi
  simp only [beHalf, BitVec.getLsbD_append, BitVec.getLsbD_extractLsb', BitVec.getLsbD_setWidth]
  split
  · simp_all
  · simp [show i - 8 < 8 by omega, show 8 + (i - 8) = i by omega, hi]

/-- A word laid out in bytes and put together again (R81, R83, R84). -/
theorem decodeBytes_wordBytes (f : SltuFunct) (w : Word) (rest : List Byte) :
    decodeBytes f (wordBytes w ++ rest) =
      match decode f w with
      | .ok i => .ok (i, rest)
      | .error r => .error r := by
  cases h : decode f w <;> simp [wordBytes, decodeBytes, beWord_extract, h]

end Sys2Proof
end

