-- ==== Sys2Proof/Laws/Memory.lean ====
section
/-! SUPPORT. The laws of the byte store: read after write, the canonical form and that every memory operation keeps it, equal
readings give equal memories, what an image fills in. None of the read-after-write laws assumes the canonical form. -/

namespace Sys2Proof.Machine

/-! ### Cells -/

theorem lookupCell_eraseCell (k a : Nat) (cs : List Host.Cell) :
    lookupCell k (eraseCell a cs) = if k = a then Memory.unlisted else lookupCell k cs := by
  induction cs with
  | nil => simp [eraseCell, lookupCell]
  | cons c cs ih => by_cases hc : c.1 = a <;> by_cases hk : k = a <;> simp_all [eraseCell, lookupCell, eq_comm]

theorem lookupCell_insertCell_of_ne {k a : Nat} (h : k ≠ a) (b : Byte) (cs : List Host.Cell) :
    lookupCell k (insertCell a b cs) = lookupCell k cs := by
  induction cs with
  | nil => simp [insertCell, lookupCell, h.symm]
  | cons c cs ih => by_cases hc : a < c.1 <;> simp [insertCell, lookupCell, hc, ih, h.symm]

theorem lookupCell_insertCell_self {a : Nat} (b : Byte) {cs : List Host.Cell} (h : ∀ c ∈ cs, c.1 ≠ a) :
    lookupCell a (insertCell a b cs) = b := by
  induction cs with
  | nil => simp [insertCell, lookupCell]
  | cons c cs ih =>
    have hne := h c List.mem_cons_self
    have ih := ih fun c' hc' => h c' (List.mem_cons_of_mem _ hc')
    unfold insertCell
    split <;> simp [lookupCell, hne, ih]

theorem mem_eraseCell_ne {a : Nat} {cs : List Host.Cell} : ∀ c ∈ eraseCell a cs, c.1 ≠ a := by
  induction cs with
  | nil => intro c hc; cases hc
  | cons c cs ih =>
    intro d hd
    unfold eraseCell at hd
    split at hd
    · exact ih d hd
    · rcases List.mem_cons.1 hd with rfl | hd
      · assumption
      · exact ih d hd

theorem lookupCell_putCell (k a : Nat) (b : Byte) (cs : List Host.Cell) :
    lookupCell k (putCell a b cs) = if k = a then b else lookupCell k cs := by
  unfold putCell
  by_cases hb : b = Memory.unlisted
  · rw [if_pos hb, lookupCell_eraseCell]; split <;> simp [hb]
  · rw [if_neg hb]
    by_cases hk : k = a
    · subst hk; simp [lookupCell_insertCell_self b mem_eraseCell_ne]
    · rw [lookupCell_insertCell_of_ne hk, lookupCell_eraseCell, if_neg hk, if_neg hk]

/-! ### Read after write -/

/-- `read_byte` after `write_byte` (R80). -/
@[simp] theorem Memory.readByte_writeByte (m : Memory) (a k : Nat) (b : Byte) :
    (m.writeByte a b).readByte k = if k = a then b else m.readByte k := lookupCell_putCell k a b m.cells

@[simp] theorem Memory.writeByte_size (m : Memory) (a : Nat) (b : Byte) : (m.writeByte a b).size = m.size := rfl

@[simp] theorem Memory.store_size (m : Memory) (a : Nat) (v : Word) (w : Width) : (m.store a v w).size = m.size := by
  cases w <;> rfl

/-- A store changes no byte outside the `n` ones it writes (R83). -/
theorem Memory.readByte_store_outside (m : Memory) (a : Nat) (v : Word) (w : Width) {k : Nat}
    (h : k < a ∨ a + w.bytes ≤ k) : (m.store a v w).readByte k = m.readByte k := by
  cases w <;> simp only [Width.bytes] at h <;> simp only [Memory.store, Memory.readByte_writeByte]
  · rw [if_neg (by omega)]
  · rw [if_neg (by omega), if_neg (by omega)]
  · rw [if_neg (by omega), if_neg (by omega), if_neg (by omega), if_neg (by omega)]

theorem Memory.readByte_store_byte (m : Memory) (a : Nat) (v : Word) :
    (m.store a v .byte).readByte a = v.extractLsb' 0 8 := by simp [Memory.store]

theorem Memory.readByte_store_half (m : Memory) (a : Nat) (v : Word) :
    (m.store a v .half).readByte a = v.extractLsb' 8 8 ∧ (m.store a v .half).readByte (a + 1) = v.extractLsb' 0 8 := by
  simp [Memory.store]

theorem Memory.readByte_store_word (m : Memory) (a : Nat) (v : Word) :
    (m.store a v .word).readByte a = v.extractLsb' 24 8 ∧ (m.store a v .word).readByte (a + 1) = v.extractLsb' 16 8 ∧
    (m.store a v .word).readByte (a + 2) = v.extractLsb' 8 8 ∧ (m.store a v .word).readByte (a + 3) = v.extractLsb' 0 8 := by
  simp [Memory.store]

/-! ### Accesses with their bounds check -/

theorem Memory.inBounds_iff (m : Memory) (a : Word) (w : Width) :
    m.inBounds a w = true ↔ a.toNat + w.bytes - 1 < m.size := by simp [Memory.inBounds]

/-- All that a read can answer. -/
theorem Memory.read_eq_some_iff (m : Memory) (a : Word) (w : Width) (v : Word) :
    m.read a w = some v ↔ a.toNat + w.bytes - 1 < m.size ∧ v = m.value a.toNat w := by
  rw [Memory.read, ← Memory.inBounds_iff]
  by_cases h : m.inBounds a w = true
  · rw [if_pos h, Option.some.injEq, eq_comm]; exact (and_iff_right h).symm
  · rw [if_neg h]; exact ⟨nofun, fun h' => absurd h'.1 h⟩

theorem Memory.read_eq_none_iff (m : Memory) (a : Word) (w : Width) :
    m.read a w = none ↔ m.size ≤ a.toNat + w.bytes - 1 := by simp [Memory.read, Memory.inBounds_iff]

theorem Memory.read_of_inBounds {m : Memory} {a : Word} {w : Width} (h : a.toNat + w.bytes - 1 < m.size) :
    m.read a w = some (m.value a.toNat w) := (Memory.read_eq_some_iff m a w _).2 ⟨h, rfl⟩

/-- All that a write can answer. -/
theorem Memory.write_eq_some_iff (m n : Memory) (a : Word) (w : Width) (v : Word) :
    m.write a w v = some n ↔ a.toNat + w.bytes - 1 < m.size ∧ n = m.store a.toNat v w := by
  rw [Memory.write, ← Memory.inBounds_iff]
  by_cases h : m.inBounds a w = true
  · rw [if_pos h, Option.some.injEq, eq_comm]; exact (and_iff_right h).symm
  · rw [if_neg h]; exact ⟨nofun, fun h' => absurd h'.1 h⟩

theorem Memory.write_eq_none_iff (m : Memory) (a : Word) (w : Width) (v : Word) :
    m.write a w v = none ↔ m.size ≤ a.toNat + w.bytes - 1 := by simp [Memory.write, Memory.inBounds_iff]

theorem Memory.write_of_inBounds {m : Memory} {a : Word} {w : Width} (v : Word) (h : a.toNat + w.bytes - 1 < m.size) :
    m.write a w v = some (m.store a.toNat v w) := (Memory.write_eq_some_iff m _ a w v).2 ⟨h, rfl⟩

/-- A word read where one was stored (R81, R83). -/
theorem Memory.value_store_word (m : Memory) (a : Nat) (v : Word) : (m.store a v .word).value a .word = v := by
  obtain ⟨h0, h1, h2, h3⟩ := m.readByte_store_word a v
  rw [Memory.value, h0, h1, h2, h3, beWord_extract]

theorem Memory.value_store_half (m : Memory) (a : Nat) (v : Word) :
    (m.store a v .half).value a .half = (v.setWidth 16).setWidth 32 := by
  obtain ⟨h0, h1⟩ := m.readByte_store_half a v
  rw [Memory.value, h0, h1, beHalf_extract]

theorem Memory.value_store_byte (m : Memory) (a : Nat) (v : Word) :
    (m.store a v .byte).value a .byte = (v.extractLsb' 0 8).setWidth 32 := by
  rw [Memory.value, m.readByte_store_byte a v]

/-! ### The canonical form -/

theorem cellsWf_cons (size lo : Nat) (c : Host.Cell) (cs : List Host.Cell) :
    cellsWf size lo (c :: cs) = true ↔
      lo ≤ c.1 ∧ c.1 < size ∧ c.2 ≠ Memory.unlisted ∧ cellsWf size (c.1 + 1) cs = true := by
  simp [cellsWf, and_assoc]

theorem cellsWf_mono {size lo lo' : Nat} {cs : List Host.Cell} (h : cellsWf size lo cs = true) (hl : lo' ≤ lo) :
    cellsWf size lo' cs = true := by
  cases cs with
  | nil => rfl
  | cons c cs =>
    rw [cellsWf_cons] at h ⊢
    exact ⟨hl.trans h.1, h.2⟩

theorem cellsWf_erase {size lo : Nat} (a : Nat) {cs : List Host.Cell} (h : cellsWf size lo cs = true) :
    cellsWf size lo (eraseCell a cs) = true := by
  induction cs generalizing lo with
  | nil => rfl
  | cons c cs ih =>
    rw [cellsWf_cons] at h
    unfold eraseCell
    split
    · exact cellsWf_mono (ih h.2.2.2) (by omega)
    · exact (cellsWf_cons ..).2 ⟨h.1, h.2.1, h.2.2.1, ih h.2.2.2⟩

theorem cellsWf_insert {size lo a : Nat} {b : Byte} {cs : List Host.Cell} (h : cellsWf size lo cs = true) (hl : lo ≤ a)
    (ha : a < size) (hb : b ≠ Memory.unlisted) (hne : ∀ c ∈ cs, c.1 ≠ a) : cellsWf size lo (insertCell a b cs) = true := by
  induction cs generalizing lo with
  | nil => exact (cellsWf_cons ..).2 ⟨hl, ha, hb, rfl⟩
  | cons c cs ih =>
    rw [cellsWf_cons] at h
    unfold insertCell
    split
    · exact (cellsWf_cons ..).2 ⟨hl, ha, hb, (cellsWf_cons ..).2 ⟨by simpa using ‹a < c.1›, h.2⟩⟩
    · have hca := hne c (by simp)
      exact (cellsWf_cons ..).2 ⟨h.1, h.2.1, h.2.2.1,
        ih h.2.2.2 (by omega) fun c' hc' => hne c' (List.mem_cons_of_mem _ hc')⟩

theorem cellsWf_put {size lo a : Nat} (b : Byte) {cs : List Host.Cell} (h : cellsWf size lo cs = true) (hl : lo ≤ a)
    (ha : a < size) : cellsWf size lo (putCell a b cs) = true := by
  unfold putCell
  split
  · exact cellsWf_erase a h
  · exact cellsWf_insert (cellsWf_erase a h) hl ha ‹_› mem_eraseCell_ne

theorem Memory.wf_iff (m : Memory) : m.wf = true ↔ m.size ≤ maxImageLength ∧ cellsWf m.size 0 m.cells = true := by
  simp [Memory.wf]

/-- Writing a byte below MEM_SIZE keeps the canonical form. -/
theorem Memory.writeByte_wf {m : Memory} {a : Nat} (b : Byte) (h : m.wf = true) (ha : a < m.size) :
    (m.writeByte a b).wf = true :=
  (Memory.wf_iff _).2 ⟨((Memory.wf_iff m).1 h).1, cellsWf_put b ((Memory.wf_iff m).1 h).2 (Nat.zero_le _) ha⟩

/-- A store in bounds keeps the canonical form. -/
theorem Memory.store_wf {m : Memory} {a : Nat} (v : Word) {w : Width} (h : m.wf = true) (ha : a + w.bytes - 1 < m.size) :
    (m.store a v w).wf = true := by
  cases w <;> simp only [Width.bytes] at ha <;> unfold Memory.store
  · exact writeByte_wf _ h (by omega)
  · exact writeByte_wf _ (writeByte_wf _ h (by omega)) (by simp; omega)
  · exact writeByte_wf _ (writeByte_wf _ (writeByte_wf _ (writeByte_wf _ h (by omega)) (by simp; omega)) (by simp; omega))
      (by simp; omega)

/-- Every write keeps the canonical form. -/
theorem Memory.write_wf {m n : Memory} {a : Word} {w : Width} {v : Word} (h : m.wf = true) (hw : m.write a w v = some n) :
    n.wf = true := by
  obtain ⟨hb, rfl⟩ := (Memory.write_eq_some_iff ..).1 hw
  exact Memory.store_wf v h hb

theorem lookupCell_of_lt {size lo k : Nat} {cs : List Host.Cell} (h : cellsWf size lo cs = true) (hk : k < lo) :
    lookupCell k cs = Memory.unlisted := by
  induction cs generalizing lo with
  | nil => rfl
  | cons c cs ih =>
    rw [cellsWf_cons] at h
    rw [lookupCell, if_neg (by omega), ih h.2.2.2 (by omega)]

/-- Cells in canonical form with the same readings are the same cells. -/
theorem cells_ext {size lo : Nat} {cs ds : List Host.Cell} (hc : cellsWf size lo cs = true) (hd : cellsWf size lo ds = true)
    (h : ∀ k, lookupCell k cs = lookupCell k ds) : cs = ds := by
  induction cs generalizing lo ds with
  | nil =>
    cases ds with
    | nil => rfl
    | cons d ds =>
      rw [cellsWf_cons] at hd
      have := h d.1
      simp only [lookupCell, if_true] at this
      exact absurd this.symm hd.2.2.1
  | cons c cs ih =>
    rw [cellsWf_cons] at hc
    cases ds with
    | nil =>
      have := h c.1
      simp only [lookupCell, if_true] at this
      exact absurd this hc.2.2.1
    | cons d ds =>
      rw [cellsWf_cons] at hd
      have h1 : c.1 = d.1 := by
        by_contra hne
        rcases Nat.lt_or_gt_of_ne hne with hlt | hgt
        · have := h c.1
          rw [lookupCell, if_pos rfl, lookupCell, if_neg (by omega), lookupCell_of_lt hd.2.2.2 (by omega)] at this
          exact hc.2.2.1 this
        · have := h d.1
          rw [lookupCell, if_neg (by omega), lookupCell_of_lt hc.2.2.2 (by omega), lookupCell, if_pos rfl] at this
          exact hd.2.2.1 this.symm
      have h2 : c.2 = d.2 := by have := h c.1; rwa [lookupCell, if_pos rfl, lookupCell, if_pos h1.symm] at this
      have h3 : cs = ds := by
        refine ih hc.2.2.2 (h1 ▸ hd.2.2.2) fun k => ?_
        by_cases hk : k = c.1
        · subst hk; rw [lookupCell_of_lt hc.2.2.2 (by omega), lookupCell_of_lt hd.2.2.2 (by omega)]
        · have := h k
          rwa [lookupCell, if_neg (Ne.symm hk), lookupCell, if_neg (h1 ▸ Ne.symm hk)] at this
      rw [Prod.ext h1 h2, h3]

/-- Memories in canonical form with the same size and the same bytes are equal. -/
theorem Memory.ext_of_wf {m n : Memory} (hm : m.wf = true) (hn : n.wf = true) (hs : m.size = n.size)
    (h : ∀ k, m.readByte k = n.readByte k) : m = n := by
  cases m; cases n
  simp only at hs; subst hs
  have := cells_ext ((Memory.wf_iff _).1 hm).2 ((Memory.wf_iff _).1 hn).2 h
  simp_all

theorem lookupCell_of_size_le {size lo k : Nat} {cs : List Host.Cell} (h : cellsWf size lo cs = true) (hk : size ≤ k) :
    lookupCell k cs = Memory.unlisted := by
  induction cs generalizing lo with
  | nil => rfl
  | cons c cs ih =>
    rw [cellsWf_cons] at h
    rw [lookupCell, if_neg (by omega), ih h.2.2.2]

/-- No cell stands at or above MEM_SIZE. -/
theorem Memory.readByte_of_size_le {m : Memory} (h : m.wf = true) {k : Nat} (hk : m.size ≤ k) :
    m.readByte k = Memory.unlisted := lookupCell_of_size_le ((Memory.wf_iff m).1 h).2 hk

/-! ### Images (R451) -/

theorem cellsWf_imageCells (a : Nat) (bs : List Byte) : cellsWf (a + bs.length) a (imageCells a bs) = true := by
  induction bs generalizing a with
  | nil => rfl
  | cons b bs ih =>
    have := ih (a + 1)
    rw [show a + 1 + bs.length = a + (b :: bs).length by simp; omega] at this
    unfold imageCells
    split
    · exact cellsWf_mono this (by omega)
    · exact (cellsWf_cons ..).2 ⟨le_rfl, by simp, ‹_›, this⟩

theorem Memory.ofImage_wf {image : List Byte} (h : image.length ≤ maxImageLength) : (Memory.ofImage image).wf = true :=
  (Memory.wf_iff _).2 ⟨h, by simpa [Memory.ofImage] using cellsWf_imageCells 0 image⟩

theorem lookupCell_imageCells (a i : Nat) (bs : List Byte) :
    lookupCell (a + i) (imageCells a bs) = bs.getD i Memory.unlisted := by
  induction bs generalizing a i with
  | nil => rfl
  | cons b bs ih =>
    have hlt : ∀ k, k ≤ a → lookupCell k (imageCells (a + 1) bs) = Memory.unlisted := fun k hk =>
      lookupCell_of_lt (cellsWf_imageCells (a + 1) bs) (by omega)
    unfold imageCells
    cases i with
    | zero =>
      split
      · rw [hlt _ (by omega)]; simp [*]
      · simp [lookupCell]
    | succ i =>
      have := ih (a + 1) i
      rw [show a + 1 + i = a + (i + 1) by omega] at this
      split
      · simpa using this
      · rw [lookupCell, if_neg (by simp), this]; simp

/-- Byte `i` of a loaded memory is byte `i` of the image. -/
theorem Memory.readByte_ofImage (image : List Byte) (i : Nat) :
    (Memory.ofImage image).readByte i = image.getD i Memory.unlisted := by
  simpa [Memory.readByte, Memory.ofImage] using lookupCell_imageCells 0 i image

end Sys2Proof.Machine
end

