-- ==== Sys2Proof/Laws/State.lean ====
section
/-! SUPPORT. One lemma per field per update of the state, and the laws of the register file. -/

namespace Sys2Proof.Machine

@[simp] theorem State.setPc_regs (s : State) (v : Word) : (s.setPc v).regs = s.regs := rfl
@[simp] theorem State.setPc_hi (s : State) (v : Word) : (s.setPc v).hi = s.hi := rfl
@[simp] theorem State.setPc_lo (s : State) (v : Word) : (s.setPc v).lo = s.lo := rfl
@[simp] theorem State.setPc_pc (s : State) (v : Word) : (s.setPc v).pc = v := rfl
@[simp] theorem State.setPc_mem (s : State) (v : Word) : (s.setPc v).mem = s.mem := rfl
@[simp] theorem State.setPc_status (s : State) (v : Word) : (s.setPc v).status = s.status := rfl
@[simp] theorem State.setPc_sltuFunct (s : State) (v : Word) : (s.setPc v).sltuFunct = s.sltuFunct := rfl
@[simp] theorem State.setPc_handler (s : State) (v : Word) : (s.setPc v).handler = s.handler := rfl
@[simp] theorem State.setPc_draws (s : State) (v : Word) : (s.setPc v).draws = s.draws := rfl
@[simp] theorem State.setPc_choices (s : State) (v : Word) : (s.setPc v).choices = s.choices := rfl
@[simp] theorem State.setPc_readReg (s : State) (v : Word) (k : RegIdx) : (s.setPc v).readReg k = s.readReg k := rfl

@[simp] theorem State.setHi_regs (s : State) (v : Word) : (s.setHi v).regs = s.regs := rfl
@[simp] theorem State.setHi_hi (s : State) (v : Word) : (s.setHi v).hi = v := rfl
@[simp] theorem State.setHi_lo (s : State) (v : Word) : (s.setHi v).lo = s.lo := rfl
@[simp] theorem State.setHi_pc (s : State) (v : Word) : (s.setHi v).pc = s.pc := rfl
@[simp] theorem State.setHi_mem (s : State) (v : Word) : (s.setHi v).mem = s.mem := rfl
@[simp] theorem State.setHi_status (s : State) (v : Word) : (s.setHi v).status = s.status := rfl
@[simp] theorem State.setHi_sltuFunct (s : State) (v : Word) : (s.setHi v).sltuFunct = s.sltuFunct := rfl
@[simp] theorem State.setHi_handler (s : State) (v : Word) : (s.setHi v).handler = s.handler := rfl
@[simp] theorem State.setHi_draws (s : State) (v : Word) : (s.setHi v).draws = s.draws := rfl
@[simp] theorem State.setHi_choices (s : State) (v : Word) : (s.setHi v).choices = s.choices := rfl
@[simp] theorem State.setHi_readReg (s : State) (v : Word) (k : RegIdx) : (s.setHi v).readReg k = s.readReg k := rfl

@[simp] theorem State.setLo_regs (s : State) (v : Word) : (s.setLo v).regs = s.regs := rfl
@[simp] theorem State.setLo_hi (s : State) (v : Word) : (s.setLo v).hi = s.hi := rfl
@[simp] theorem State.setLo_lo (s : State) (v : Word) : (s.setLo v).lo = v := rfl
@[simp] theorem State.setLo_pc (s : State) (v : Word) : (s.setLo v).pc = s.pc := rfl
@[simp] theorem State.setLo_mem (s : State) (v : Word) : (s.setLo v).mem = s.mem := rfl
@[simp] theorem State.setLo_status (s : State) (v : Word) : (s.setLo v).status = s.status := rfl
@[simp] theorem State.setLo_sltuFunct (s : State) (v : Word) : (s.setLo v).sltuFunct = s.sltuFunct := rfl
@[simp] theorem State.setLo_handler (s : State) (v : Word) : (s.setLo v).handler = s.handler := rfl
@[simp] theorem State.setLo_draws (s : State) (v : Word) : (s.setLo v).draws = s.draws := rfl
@[simp] theorem State.setLo_choices (s : State) (v : Word) : (s.setLo v).choices = s.choices := rfl
@[simp] theorem State.setLo_readReg (s : State) (v : Word) (k : RegIdx) : (s.setLo v).readReg k = s.readReg k := rfl

@[simp] theorem State.setMem_regs (s : State) (v : Memory) : (s.setMem v).regs = s.regs := rfl
@[simp] theorem State.setMem_hi (s : State) (v : Memory) : (s.setMem v).hi = s.hi := rfl
@[simp] theorem State.setMem_lo (s : State) (v : Memory) : (s.setMem v).lo = s.lo := rfl
@[simp] theorem State.setMem_pc (s : State) (v : Memory) : (s.setMem v).pc = s.pc := rfl
@[simp] theorem State.setMem_mem (s : State) (v : Memory) : (s.setMem v).mem = v := rfl
@[simp] theorem State.setMem_status (s : State) (v : Memory) : (s.setMem v).status = s.status := rfl
@[simp] theorem State.setMem_sltuFunct (s : State) (v : Memory) : (s.setMem v).sltuFunct = s.sltuFunct := rfl
@[simp] theorem State.setMem_handler (s : State) (v : Memory) : (s.setMem v).handler = s.handler := rfl
@[simp] theorem State.setMem_draws (s : State) (v : Memory) : (s.setMem v).draws = s.draws := rfl
@[simp] theorem State.setMem_choices (s : State) (v : Memory) : (s.setMem v).choices = s.choices := rfl
@[simp] theorem State.setMem_readReg (s : State) (v : Memory) (k : RegIdx) : (s.setMem v).readReg k = s.readReg k := rfl

@[simp] theorem State.setStatus_regs (s : State) (v : Status) : (s.setStatus v).regs = s.regs := rfl
@[simp] theorem State.setStatus_hi (s : State) (v : Status) : (s.setStatus v).hi = s.hi := rfl
@[simp] theorem State.setStatus_lo (s : State) (v : Status) : (s.setStatus v).lo = s.lo := rfl
@[simp] theorem State.setStatus_pc (s : State) (v : Status) : (s.setStatus v).pc = s.pc := rfl
@[simp] theorem State.setStatus_mem (s : State) (v : Status) : (s.setStatus v).mem = s.mem := rfl
@[simp] theorem State.setStatus_status (s : State) (v : Status) : (s.setStatus v).status = v := rfl
@[simp] theorem State.setStatus_sltuFunct (s : State) (v : Status) : (s.setStatus v).sltuFunct = s.sltuFunct := rfl
@[simp] theorem State.setStatus_handler (s : State) (v : Status) : (s.setStatus v).handler = s.handler := rfl
@[simp] theorem State.setStatus_draws (s : State) (v : Status) : (s.setStatus v).draws = s.draws := rfl
@[simp] theorem State.setStatus_choices (s : State) (v : Status) : (s.setStatus v).choices = s.choices := rfl
@[simp] theorem State.setStatus_readReg (s : State) (v : Status) (k : RegIdx) : (s.setStatus v).readReg k = s.readReg k := rfl

@[simp] theorem State.setHandler_regs (s : State) (v : SyscallHandler) : (s.setHandler v).regs = s.regs := rfl
@[simp] theorem State.setHandler_hi (s : State) (v : SyscallHandler) : (s.setHandler v).hi = s.hi := rfl
@[simp] theorem State.setHandler_lo (s : State) (v : SyscallHandler) : (s.setHandler v).lo = s.lo := rfl
@[simp] theorem State.setHandler_pc (s : State) (v : SyscallHandler) : (s.setHandler v).pc = s.pc := rfl
@[simp] theorem State.setHandler_mem (s : State) (v : SyscallHandler) : (s.setHandler v).mem = s.mem := rfl
@[simp] theorem State.setHandler_status (s : State) (v : SyscallHandler) : (s.setHandler v).status = s.status := rfl
@[simp] theorem State.setHandler_sltuFunct (s : State) (v : SyscallHandler) : (s.setHandler v).sltuFunct = s.sltuFunct := rfl
@[simp] theorem State.setHandler_handler (s : State) (v : SyscallHandler) : (s.setHandler v).handler = v := rfl
@[simp] theorem State.setHandler_draws (s : State) (v : SyscallHandler) : (s.setHandler v).draws = s.draws := rfl
@[simp] theorem State.setHandler_choices (s : State) (v : SyscallHandler) : (s.setHandler v).choices = s.choices := rfl
@[simp] theorem State.setHandler_readReg (s : State) (v : SyscallHandler) (k : RegIdx) : (s.setHandler v).readReg k = s.readReg k := rfl

@[simp] theorem State.setDraws_regs (s : State) (v : Nat) : (s.setDraws v).regs = s.regs := rfl
@[simp] theorem State.setDraws_hi (s : State) (v : Nat) : (s.setDraws v).hi = s.hi := rfl
@[simp] theorem State.setDraws_lo (s : State) (v : Nat) : (s.setDraws v).lo = s.lo := rfl
@[simp] theorem State.setDraws_pc (s : State) (v : Nat) : (s.setDraws v).pc = s.pc := rfl
@[simp] theorem State.setDraws_mem (s : State) (v : Nat) : (s.setDraws v).mem = s.mem := rfl
@[simp] theorem State.setDraws_status (s : State) (v : Nat) : (s.setDraws v).status = s.status := rfl
@[simp] theorem State.setDraws_sltuFunct (s : State) (v : Nat) : (s.setDraws v).sltuFunct = s.sltuFunct := rfl
@[simp] theorem State.setDraws_handler (s : State) (v : Nat) : (s.setDraws v).handler = s.handler := rfl
@[simp] theorem State.setDraws_draws (s : State) (v : Nat) : (s.setDraws v).draws = v := rfl
@[simp] theorem State.setDraws_choices (s : State) (v : Nat) : (s.setDraws v).choices = s.choices := rfl
@[simp] theorem State.setDraws_readReg (s : State) (v : Nat) (k : RegIdx) : (s.setDraws v).readReg k = s.readReg k := rfl

@[simp] theorem State.setChoices_regs (s : State) (v : Nat) : (s.setChoices v).regs = s.regs := rfl
@[simp] theorem State.setChoices_hi (s : State) (v : Nat) : (s.setChoices v).hi = s.hi := rfl
@[simp] theorem State.setChoices_lo (s : State) (v : Nat) : (s.setChoices v).lo = s.lo := rfl
@[simp] theorem State.setChoices_pc (s : State) (v : Nat) : (s.setChoices v).pc = s.pc := rfl
@[simp] theorem State.setChoices_mem (s : State) (v : Nat) : (s.setChoices v).mem = s.mem := rfl
@[simp] theorem State.setChoices_status (s : State) (v : Nat) : (s.setChoices v).status = s.status := rfl
@[simp] theorem State.setChoices_sltuFunct (s : State) (v : Nat) : (s.setChoices v).sltuFunct = s.sltuFunct := rfl
@[simp] theorem State.setChoices_handler (s : State) (v : Nat) : (s.setChoices v).handler = s.handler := rfl
@[simp] theorem State.setChoices_draws (s : State) (v : Nat) : (s.setChoices v).draws = s.draws := rfl
@[simp] theorem State.setChoices_choices (s : State) (v : Nat) : (s.setChoices v).choices = v := rfl
@[simp] theorem State.setChoices_readReg (s : State) (v : Nat) (k : RegIdx) : (s.setChoices v).readReg k = s.readReg k := rfl

@[simp] theorem State.advance_regs (s : State) : s.advance.regs = s.regs := rfl
@[simp] theorem State.advance_hi (s : State) : s.advance.hi = s.hi := rfl
@[simp] theorem State.advance_lo (s : State) : s.advance.lo = s.lo := rfl
@[simp] theorem State.advance_pc (s : State) : s.advance.pc = s.nextPc := rfl
@[simp] theorem State.advance_mem (s : State) : s.advance.mem = s.mem := rfl
@[simp] theorem State.advance_status (s : State) : s.advance.status = s.status := rfl
@[simp] theorem State.advance_sltuFunct (s : State) : s.advance.sltuFunct = s.sltuFunct := rfl
@[simp] theorem State.advance_handler (s : State) : s.advance.handler = s.handler := rfl
@[simp] theorem State.advance_draws (s : State) : s.advance.draws = s.draws := rfl
@[simp] theorem State.advance_choices (s : State) : s.advance.choices = s.choices := rfl
@[simp] theorem State.advance_readReg (s : State) (k : RegIdx) : s.advance.readReg k = s.readReg k := rfl

@[simp] theorem State.drawHiLo_regs (s : State) : s.drawHiLo.regs = s.regs := rfl
@[simp] theorem State.drawHiLo_hi (s : State) : s.drawHiLo.hi = Config.draw32 s.draws := rfl
@[simp] theorem State.drawHiLo_lo (s : State) : s.drawHiLo.lo = Config.draw32 (s.draws + 1) := rfl
@[simp] theorem State.drawHiLo_pc (s : State) : s.drawHiLo.pc = s.pc := rfl
@[simp] theorem State.drawHiLo_mem (s : State) : s.drawHiLo.mem = s.mem := rfl
@[simp] theorem State.drawHiLo_status (s : State) : s.drawHiLo.status = s.status := rfl
@[simp] theorem State.drawHiLo_sltuFunct (s : State) : s.drawHiLo.sltuFunct = s.sltuFunct := rfl
@[simp] theorem State.drawHiLo_handler (s : State) : s.drawHiLo.handler = s.handler := rfl
@[simp] theorem State.drawHiLo_draws (s : State) : s.drawHiLo.draws = s.draws + 2 := rfl
@[simp] theorem State.drawHiLo_choices (s : State) : s.drawHiLo.choices = s.choices := rfl
@[simp] theorem State.drawHiLo_readReg (s : State) (k : RegIdx) : s.drawHiLo.readReg k = s.readReg k := rfl

@[simp] theorem State.countChoice_regs (s : State) : s.countChoice.regs = s.regs := rfl
@[simp] theorem State.countChoice_hi (s : State) : s.countChoice.hi = s.hi := rfl
@[simp] theorem State.countChoice_lo (s : State) : s.countChoice.lo = s.lo := rfl
@[simp] theorem State.countChoice_pc (s : State) : s.countChoice.pc = s.pc := rfl
@[simp] theorem State.countChoice_mem (s : State) : s.countChoice.mem = s.mem := rfl
@[simp] theorem State.countChoice_status (s : State) : s.countChoice.status = s.status := rfl
@[simp] theorem State.countChoice_sltuFunct (s : State) : s.countChoice.sltuFunct = s.sltuFunct := rfl
@[simp] theorem State.countChoice_handler (s : State) : s.countChoice.handler = s.handler := rfl
@[simp] theorem State.countChoice_draws (s : State) : s.countChoice.draws = s.draws := rfl
@[simp] theorem State.countChoice_choices (s : State) : s.countChoice.choices = if 2 ≤ s.outcomes.length then s.choices + 1 else s.choices := rfl
@[simp] theorem State.countChoice_readReg (s : State) (k : RegIdx) : s.countChoice.readReg k = s.readReg k := rfl

/-- The handler is given the registers as they read (R12). -/
@[simp] theorem State.arch_regs (s : State) (k : RegIdx) : s.arch.regs[(k : Nat)] = s.readReg k := by simp [State.arch]
@[simp] theorem State.arch_hi (s : State) : s.arch.hi = s.hi := rfl
@[simp] theorem State.arch_lo (s : State) : s.arch.lo = s.lo := rfl
@[simp] theorem State.arch_pc (s : State) : s.arch.pc = s.pc := rfl
@[simp] theorem State.arch_mem (s : State) : s.arch.mem = s.mem := rfl

/-- Taking this error writes `status` and nothing else. -/
theorem State.raiseMemoryFault_eq (s : State) (w : Option Word) (a : Word) :
    s.raiseMemoryFault w a = s.setStatus (.halted ⟨.memoryFault, s.pc, w, some a⟩) := rfl
@[simp] theorem State.raiseMemoryFault_regs (s : State) (w : Option Word) (a : Word) :
    (s.raiseMemoryFault w a).regs = s.regs := rfl
@[simp] theorem State.raiseMemoryFault_hi (s : State) (w : Option Word) (a : Word) :
    (s.raiseMemoryFault w a).hi = s.hi := rfl
@[simp] theorem State.raiseMemoryFault_lo (s : State) (w : Option Word) (a : Word) :
    (s.raiseMemoryFault w a).lo = s.lo := rfl
@[simp] theorem State.raiseMemoryFault_pc (s : State) (w : Option Word) (a : Word) :
    (s.raiseMemoryFault w a).pc = s.pc := rfl
@[simp] theorem State.raiseMemoryFault_mem (s : State) (w : Option Word) (a : Word) :
    (s.raiseMemoryFault w a).mem = s.mem := rfl
@[simp] theorem State.raiseMemoryFault_status (s : State) (w : Option Word) (a : Word) :
    (s.raiseMemoryFault w a).status = .halted ⟨.memoryFault, s.pc, w, some a⟩ := rfl
@[simp] theorem State.raiseMemoryFault_sltuFunct (s : State) (w : Option Word) (a : Word) :
    (s.raiseMemoryFault w a).sltuFunct = s.sltuFunct := rfl
@[simp] theorem State.raiseMemoryFault_handler (s : State) (w : Option Word) (a : Word) :
    (s.raiseMemoryFault w a).handler = s.handler := rfl
@[simp] theorem State.raiseMemoryFault_draws (s : State) (w : Option Word) (a : Word) :
    (s.raiseMemoryFault w a).draws = s.draws := rfl
@[simp] theorem State.raiseMemoryFault_choices (s : State) (w : Option Word) (a : Word) :
    (s.raiseMemoryFault w a).choices = s.choices := rfl
@[simp] theorem State.raiseMemoryFault_readReg (s : State) (w : Option Word) (a : Word) (k : RegIdx) :
    (s.raiseMemoryFault w a).readReg k = s.readReg k := rfl

/-- Taking this error writes `status` and nothing else. -/
theorem State.raiseDecodeError_eq (s : State) (w : Word) :
    s.raiseDecodeError w = s.setStatus (.halted ⟨.decodeError, s.pc, some w, none⟩) := rfl
@[simp] theorem State.raiseDecodeError_regs (s : State) (w : Word) :
    (s.raiseDecodeError w).regs = s.regs := rfl
@[simp] theorem State.raiseDecodeError_hi (s : State) (w : Word) :
    (s.raiseDecodeError w).hi = s.hi := rfl
@[simp] theorem State.raiseDecodeError_lo (s : State) (w : Word) :
    (s.raiseDecodeError w).lo = s.lo := rfl
@[simp] theorem State.raiseDecodeError_pc (s : State) (w : Word) :
    (s.raiseDecodeError w).pc = s.pc := rfl
@[simp] theorem State.raiseDecodeError_mem (s : State) (w : Word) :
    (s.raiseDecodeError w).mem = s.mem := rfl
@[simp] theorem State.raiseDecodeError_status (s : State) (w : Word) :
    (s.raiseDecodeError w).status = .halted ⟨.decodeError, s.pc, some w, none⟩ := rfl
@[simp] theorem State.raiseDecodeError_sltuFunct (s : State) (w : Word) :
    (s.raiseDecodeError w).sltuFunct = s.sltuFunct := rfl
@[simp] theorem State.raiseDecodeError_handler (s : State) (w : Word) :
    (s.raiseDecodeError w).handler = s.handler := rfl
@[simp] theorem State.raiseDecodeError_draws (s : State) (w : Word) :
    (s.raiseDecodeError w).draws = s.draws := rfl
@[simp] theorem State.raiseDecodeError_choices (s : State) (w : Word) :
    (s.raiseDecodeError w).choices = s.choices := rfl
@[simp] theorem State.raiseDecodeError_readReg (s : State) (w : Word) (k : RegIdx) :
    (s.raiseDecodeError w).readReg k = s.readReg k := rfl

/-- Taking this error writes `status` and nothing else. -/
theorem State.raiseTerminated_eq (s : State) (p w : Word) :
    s.raiseTerminated p w = s.setStatus (.halted ⟨.terminated, p, some w, none⟩) := rfl
@[simp] theorem State.raiseTerminated_regs (s : State) (p w : Word) :
    (s.raiseTerminated p w).regs = s.regs := rfl
@[simp] theorem State.raiseTerminated_hi (s : State) (p w : Word) :
    (s.raiseTerminated p w).hi = s.hi := rfl
@[simp] theorem State.raiseTerminated_lo (s : State) (p w : Word) :
    (s.raiseTerminated p w).lo = s.lo := rfl
@[simp] theorem State.raiseTerminated_pc (s : State) (p w : Word) :
    (s.raiseTerminated p w).pc = s.pc := rfl
@[simp] theorem State.raiseTerminated_mem (s : State) (p w : Word) :
    (s.raiseTerminated p w).mem = s.mem := rfl
@[simp] theorem State.raiseTerminated_status (s : State) (p w : Word) :
    (s.raiseTerminated p w).status = .halted ⟨.terminated, p, some w, none⟩ := rfl
@[simp] theorem State.raiseTerminated_sltuFunct (s : State) (p w : Word) :
    (s.raiseTerminated p w).sltuFunct = s.sltuFunct := rfl
@[simp] theorem State.raiseTerminated_handler (s : State) (p w : Word) :
    (s.raiseTerminated p w).handler = s.handler := rfl
@[simp] theorem State.raiseTerminated_draws (s : State) (p w : Word) :
    (s.raiseTerminated p w).draws = s.draws := rfl
@[simp] theorem State.raiseTerminated_choices (s : State) (p w : Word) :
    (s.raiseTerminated p w).choices = s.choices := rfl
@[simp] theorem State.raiseTerminated_readReg (s : State) (p w : Word) (k : RegIdx) :
    (s.raiseTerminated p w).readReg k = s.readReg k := rfl

/-! ### The register file -/

@[simp] theorem State.readReg_zero (s : State) : s.readReg 0 = 0#32 := rfl

@[simp] theorem State.writeReg_zero (s : State) (v : Word) : s.writeReg 0 v = s := rfl

theorem State.writeReg_of_ne (s : State) {i : RegIdx} (h : i ≠ 0) (v : Word) :
    s.writeReg i v = { s with regs := s.regs.set i v } := if_neg h

@[simp] theorem State.writeReg_hi (s : State) (i : RegIdx) (v : Word) : (s.writeReg i v).hi = s.hi := by
  unfold State.writeReg; split <;> rfl

@[simp] theorem State.writeReg_lo (s : State) (i : RegIdx) (v : Word) : (s.writeReg i v).lo = s.lo := by
  unfold State.writeReg; split <;> rfl

@[simp] theorem State.writeReg_pc (s : State) (i : RegIdx) (v : Word) : (s.writeReg i v).pc = s.pc := by
  unfold State.writeReg; split <;> rfl

@[simp] theorem State.writeReg_mem (s : State) (i : RegIdx) (v : Word) : (s.writeReg i v).mem = s.mem := by
  unfold State.writeReg; split <;> rfl

@[simp] theorem State.writeReg_status (s : State) (i : RegIdx) (v : Word) : (s.writeReg i v).status = s.status := by
  unfold State.writeReg; split <;> rfl

@[simp] theorem State.writeReg_sltuFunct (s : State) (i : RegIdx) (v : Word) : (s.writeReg i v).sltuFunct = s.sltuFunct := by
  unfold State.writeReg; split <;> rfl

@[simp] theorem State.writeReg_handler (s : State) (i : RegIdx) (v : Word) : (s.writeReg i v).handler = s.handler := by
  unfold State.writeReg; split <;> rfl

@[simp] theorem State.writeReg_draws (s : State) (i : RegIdx) (v : Word) : (s.writeReg i v).draws = s.draws := by
  unfold State.writeReg; split <;> rfl

@[simp] theorem State.writeReg_choices (s : State) (i : RegIdx) (v : Word) : (s.writeReg i v).choices = s.choices := by
  unfold State.writeReg; split <;> rfl

/-- Reading after writing: R[0] is zero, the written register holds the value, the others are as before (R42). -/
@[simp] theorem State.readReg_writeReg (s : State) (i k : RegIdx) (v : Word) :
    (s.writeReg i v).readReg k = if k = 0 then 0#32 else if k = i then v else s.readReg k := by
  unfold State.readReg
  by_cases hk : k = 0
  · simp [hk]
  by_cases hi : i = 0
  · subst hi; simp [hk]
  simp only [hk, if_false, State.writeReg_of_ne s hi, Fin.getElem_fin, Vector.getElem_set, Fin.val_inj, eq_comm (a := i)]

/-- The stored slot of R[0] is out of the write path's reach. -/
@[simp] theorem State.writeReg_zeroSlot (s : State) (i : RegIdx) (v : Word) : (s.writeReg i v).regs[0] = s.regs[0] := by
  by_cases hi : i = 0
  · simp [hi]
  · have : (i : Nat) ≠ 0 := fun h => hi (Fin.ext h)
    simp [State.writeReg_of_ne s hi, this]

/-- Two states with the same stored slot 0 and the same readings have the same register file. -/
theorem State.regs_ext {s t : State} (h0 : s.regs[0] = t.regs[0]) (h : ∀ k, s.readReg k = t.readReg k) : s.regs = t.regs := by
  apply Vector.ext
  intro i hi
  rcases Nat.eq_zero_or_pos i with rfl | hpos
  · exact h0
  · have hk : (⟨i, hi⟩ : RegIdx) ≠ 0 := fun e => by simp [Fin.ext_iff] at e; omega
    simpa [State.readReg, hk] using h ⟨i, hi⟩

/-! ### Construction (R450) -/

@[simp] theorem State.new_readReg (e : Word) (k : RegIdx) : (State.new e).readReg k = 0#32 := by
  unfold State.readReg State.new; split <;> simp

end Sys2Proof.Machine
end

