-- ==== Sys2Proof/Laws/Exec.lean ====
section
/-! SUPPORT. One lemma per shared operation of the meanings, saying all it can do, and what every meaning leaves alone. -/

namespace Sys2Proof.Machine

/-! ### Loads and stores -/

section
variable (s : State) (i : Instr) (width : Width) (extend : Word → Word) (rt rs : RegIdx) (imm : Imm16)

/-- A load in bounds (R231 to R235). -/
theorem State.loadTo_inBounds (h : (s.effectiveAddress rs imm).toNat + width.bytes - 1 < s.mem.size) :
    s.loadTo i width extend rt rs imm =
      (s.writeReg rt (extend (s.mem.value (s.effectiveAddress rs imm).toNat width))).advance := by
  simp only [State.loadTo, Memory.read_of_inBounds h]

/-- A load out of bounds (R402, R404). -/
theorem State.loadTo_outOfBounds (h : s.mem.size ≤ (s.effectiveAddress rs imm).toNat + width.bytes - 1) :
    s.loadTo i width extend rt rs imm =
      s.raiseMemoryFault (some (encode s.sltuFunct i)) (s.effectiveAddress rs imm) := by
  simp only [State.loadTo, (Memory.read_eq_none_iff ..).2 h]

/-- All that a load can do. -/
theorem State.loadTo_cases :
    (∃ v, s.loadTo i width extend rt rs imm = (s.writeReg rt v).advance) ∨
    s.loadTo i width extend rt rs imm =
      s.raiseMemoryFault (some (encode s.sltuFunct i)) (s.effectiveAddress rs imm) := by
  by_cases h : (s.effectiveAddress rs imm).toNat + width.bytes - 1 < s.mem.size
  · exact .inl ⟨_, s.loadTo_inBounds i width extend rt rs imm h⟩
  · exact .inr (s.loadTo_outOfBounds i width extend rt rs imm (Nat.le_of_not_lt h))

/-- A store in bounds (R237 to R239). -/
theorem State.storeFrom_inBounds (h : (s.effectiveAddress rs imm).toNat + width.bytes - 1 < s.mem.size) :
    s.storeFrom i width rt rs imm =
      (s.setMem (s.mem.store (s.effectiveAddress rs imm).toNat (s.readReg rt) width)).advance := by
  simp only [State.storeFrom, Memory.write_of_inBounds _ h]

/-- A store out of bounds (R241, R402, R404). -/
theorem State.storeFrom_outOfBounds (h : s.mem.size ≤ (s.effectiveAddress rs imm).toNat + width.bytes - 1) :
    s.storeFrom i width rt rs imm =
      s.raiseMemoryFault (some (encode s.sltuFunct i)) (s.effectiveAddress rs imm) := by
  simp only [State.storeFrom, (Memory.write_eq_none_iff ..).2 h]

/-- All that a store can do. -/
theorem State.storeFrom_cases :
    (∃ m, s.mem.write (s.effectiveAddress rs imm) width (s.readReg rt) = some m ∧
      s.storeFrom i width rt rs imm = (s.setMem m).advance) ∨
    s.storeFrom i width rt rs imm =
      s.raiseMemoryFault (some (encode s.sltuFunct i)) (s.effectiveAddress rs imm) := by
  cases h : s.mem.write (s.effectiveAddress rs imm) width (s.readReg rt) with
  | some m => exact .inl ⟨m, rfl, by simp only [State.storeFrom, h]⟩
  | none => exact .inr (by simp only [State.storeFrom, h])

end

/-! ### The finishing operations, as the updates they are -/

@[simp] theorem State.branchIf_eq (s : State) (c : Bool) (off : Imm16) :
    s.branchIf c off = s.setPc (if c then branchTarget s.pc off else s.nextPc) := rfl

@[simp] theorem State.finishImmediate_eq (s : State) (r : RegIdx) (v : Word) :
    s.finishImmediate r v = (s.writeReg r v).advance := rfl

@[simp] theorem State.finishAlu_eq (s : State) (r : RegIdx) (v : Word) : s.finishAlu r v = (s.writeReg r v).advance := rfl

@[simp] theorem State.finishHiLo_eq (s : State) (h l : Word) : s.finishHiLo h l = ((s.setHi h).setLo l).advance := rfl

@[simp] theorem State.finishDivideByZero_eq (s : State) : s.finishDivideByZero = s.drawHiLo.advance := rfl

/-- Four, added after a register was written, is added to the same pc. -/
@[simp] theorem State.writeReg_nextPc (s : State) (i : RegIdx) (v : Word) : (s.writeReg i v).nextPc = s.nextPc := by
  simp [State.nextPc]

/-! ### The free choice among outcomes (R340; log 18) -/

/-- Some way of choosing takes each element of a list, and no way takes anything else. -/
theorem chooseFrom_eq_some_iff {α : Type} (os : List α) (o : α) : (∃ n, chooseFrom os n = some o) ↔ o ∈ os := by
  match os with
  | [] => simp [chooseFrom]
  | [a] => simp [chooseFrom, eq_comm]
  | a :: b :: cs =>
    simp only [chooseFrom]
    refine ⟨fun ⟨n, h⟩ => List.mem_of_getElem? h, fun h => ?_⟩
    obtain ⟨n, hn, rfl⟩ := List.mem_iff_getElem.1 h
    exact ⟨n, by rw [Nat.mod_eq_of_lt hn, List.getElem?_eq_getElem hn]⟩

theorem chooseFrom_eq_none_iff {α : Type} (os : List α) (n : Nat) : chooseFrom os n = none ↔ os = [] := by
  match os with
  | [] => simp [chooseFrom]
  | [a] => simp [chooseFrom]
  | a :: b :: cs =>
    have : n % (a :: b :: cs).length < (a :: b :: cs).length := Nat.mod_lt _ (Nat.succ_pos _)
    simp only [chooseFrom, List.getElem?_eq_none_iff]
    simp only [reduceCtorEq, iff_false]
    omega

theorem State.mem_outcomes_of_chosen {s : State} {o : HandlerOutcome} (h : s.chosenOutcome = some o) : o ∈ s.outcomes :=
  (chooseFrom_eq_some_iff _ _).1 ⟨_, h⟩

theorem State.chosenOutcome_eq_none_iff (s : State) : s.chosenOutcome = none ↔ s.outcomes = [] :=
  chooseFrom_eq_none_iff ..

/-- A single outcome is the chosen one, and no choice is counted. -/
theorem State.chosenOutcome_singleton {s : State} {o : HandlerOutcome} (h : s.outcomes = [o]) :
    s.chosenOutcome = some o ∧ s.countChoice = s := by
  simp [State.chosenOutcome, State.countChoice, State.setChoices, h, chooseFrom]

/-! ### The handler's edits (R340) -/

theorem SameParams.trans {s t u : State} (h : SameParams s t) (k : SameParams t u) : SameParams s u :=
  ⟨k.1.trans h.1, k.2.1.trans h.2.1, k.2.2.1.trans h.2.2.1, k.2.2.2.trans h.2.2.2⟩

/-- What no edit of the handler reaches: MEM_SIZE, the stored slot of R[0], the status, the parameters, the counts. -/
theorem State.applyEdit_keeps (s : State) (e : HandlerEdit) :
    (s.applyEdit e).mem.size = s.mem.size ∧ (s.applyEdit e).regs[0] = s.regs[0] ∧ (s.applyEdit e).status = s.status ∧
    SameParams s (s.applyEdit e) := by
  cases e with
  | byte a b => by_cases h : a.toNat < s.mem.size <;> simp [State.applyEdit, SameParams, h]
  | _ => simp [State.applyEdit, SameParams]

theorem State.applyEdits_keeps (s : State) (es : List HandlerEdit) :
    (s.applyEdits es).mem.size = s.mem.size ∧ (s.applyEdits es).regs[0] = s.regs[0] ∧
    (s.applyEdits es).status = s.status ∧ SameParams s (s.applyEdits es) := by
  induction es generalizing s with
  | nil => exact ⟨rfl, rfl, rfl, rfl, rfl, rfl, rfl⟩
  | cons e es ih =>
    obtain ⟨h1, h2, h3, h4⟩ := s.applyEdit_keeps e
    obtain ⟨k1, k2, k3, k4⟩ := ih (s.applyEdit e)
    exact ⟨k1.trans h1, k2.trans h2, k3.trans h3, h4.trans k4⟩

/-- The handler's edits keep the canonical form of MEM. -/
theorem State.applyEdits_wf (s : State) (es : List HandlerEdit) (h : s.mem.wf = true) : (s.applyEdits es).mem.wf = true := by
  induction es generalizing s with
  | nil => exact h
  | cons e es ih =>
    refine ih _ ?_
    cases e with
    | byte a b =>
      by_cases hb : a.toNat < s.mem.size
      · simpa [State.applyEdit, hb] using Memory.writeByte_wf b h hb
      · simpa [State.applyEdit, hb] using h
    | _ => simpa [State.applyEdit] using h

/-- The count of choices has no part in the handler's edits. -/
theorem State.applyEdits_setChoices (s : State) (n : Nat) (es : List HandlerEdit) :
    (s.setChoices n).applyEdits es = (s.applyEdits es).setChoices n := by
  induction es generalizing s with
  | nil => rfl
  | cons e es ih =>
    simp only [State.applyEdits, ← ih]
    congr 1
    cases e with
    | reg i v => by_cases h : i = 0 <;> simp [State.applyEdit, State.writeReg, State.setChoices, h]
    | byte a b => by_cases h : a.toNat < s.mem.size <;> simp [State.applyEdit, State.setMem, State.setChoices, h]
    | _ => rfl

theorem State.applyEdits_append (s : State) (es fs : List HandlerEdit) :
    s.applyEdits (es ++ fs) = (s.applyEdits es).applyEdits fs := by
  induction es generalizing s with
  | nil => rfl
  | cons e es ih => exact ih _

/-! ### The placing of a fetched word (log 4) -/

/-- Cells below a size are below a greater one. -/
theorem cellsWf_size_mono {size size' lo : Nat} {cs : List Host.Cell} (h : cellsWf size lo cs = true) (hs : size ≤ size') :
    cellsWf size' lo cs = true := by
  induction cs generalizing lo with
  | nil => rfl
  | cons c cs ih =>
    obtain ⟨h1, h2, h3, h4⟩ := (cellsWf_cons ..).1 h
    exact (cellsWf_cons ..).2 ⟨h1, by omega, h3, ih h4⟩

/-- Placing a word keeps the canonical form of MEM. -/
theorem State.placeFetchWord_wf (s : State) (w : Word) (h : s.mem.wf = true) : (s.placeFetchWord w).mem.wf = true := by
  obtain ⟨hs, hc⟩ := (Memory.wf_iff _).1 h
  simp only [State.placeFetchWord, State.setStatus_mem, State.setMem_mem]
  have hp : (if s.pc.toNat + 4 ≤ maxImageLength then s.pc else 0#32).toNat + 4 ≤ maxImageLength := by
    split
    · assumption
    · decide
  refine Memory.store_wf w ((Memory.wf_iff _).2 ⟨Nat.max_le.2 ⟨hs, hp⟩, cellsWf_size_mono hc (Nat.le_max_left ..)⟩) ?_
  simp only [Width.bytes]
  omega

/-! ### All meanings at once -/

/-- No meaning refuses. -/
theorem exec_ne_refused (i : Instr) (s : State) (r : Refusal) : exec i s ≠ .refused r := by
  cases i with
  | syscall code => simp only [exec, execSyscall]; split <;> simp
  | _ => exact nofun

/-- The only fault is that of a `syscall` whose handler gives no outcome (R340). -/
theorem exec_fault {i : Instr} {s : State} {r : Fault} (h : exec i s = .fault r) :
    r = .noHandlerOutcome ∧ i.isSyscall = true ∧ s.outcomes = [] := by
  cases i with
  | syscall code =>
    simp only [exec, execSyscall] at h
    split at h
    · exact ⟨(Host.Outcome.fault.inj h).symm, rfl, s.chosenOutcome_eq_none_iff.1 ‹_›⟩
    · cases h
  | _ => exact nomatch h

/-- What every instruction but the loads, the stores and `syscall` leaves alone: MEM, the status, the parameters, the stored
slot of R[0]. -/
theorem exec_plain {i : Instr} {s t : State} (h : exec i s = .next t) (hs : i.isStore = false) (hc : i.isSyscall = false)
    (hl : i.isLoad = false) :
    t.mem = s.mem ∧ t.status = s.status ∧ t.sltuFunct = s.sltuFunct ∧ t.handler = s.handler ∧ t.choices = s.choices ∧
    t.regs[0] = s.regs[0] := by
  cases i with
  | lb | lbu | lh | lhu | lw => cases hl
  | sb | sh | sw => cases hs
  | syscall => cases hc
  | div rs rt | divu rs rt =>
    obtain rfl := Host.Outcome.next.inj h
    by_cases hz : s.readReg rt = 0#32 <;> simp [hz]
  | _ => obtain rfl := Host.Outcome.next.inj h; simp [State.finishProduct]

/-- A load reads its register file and memory alone: it ends in a register write and pc + 4, or in a MemoryFault (R231 to
R235, R402). -/
theorem exec_load {i : Instr} {s t : State} (h : exec i s = .next t) (hl : i.isLoad = true) :
    (∃ r v, i.destination = some r ∧ t = (s.writeReg r v).advance) ∨
    ∃ a, t = s.raiseMemoryFault (some (encode s.sltuFunct i)) a := by
  cases i with
  | lb rt rs imm | lbu rt rs imm | lh rt rs imm | lhu rt rs imm | lw rt rs imm =>
    obtain rfl := Host.Outcome.next.inj h
    rcases State.loadTo_cases s _ _ _ rt rs imm with ⟨v, e⟩ | e
    · exact .inl ⟨rt, v, rfl, e⟩
    · exact .inr ⟨_, e⟩
  | _ => cases hl

/-- A store ends in a new MEM and pc + 4, or in a MemoryFault (R237 to R239, R402). -/
theorem exec_store {i : Instr} {s t : State} (h : exec i s = .next t) (hs : i.isStore = true) :
    (∃ a w v m, s.mem.write a w v = some m ∧ t = (s.setMem m).advance) ∨
    ∃ a, t = s.raiseMemoryFault (some (encode s.sltuFunct i)) a := by
  cases i with
  | sb rt rs imm | sh rt rs imm | sw rt rs imm =>
    obtain rfl := Host.Outcome.next.inj h
    rcases State.storeFrom_cases s _ _ rt rs imm with ⟨m, hm, e⟩ | e
    · exact .inl ⟨_, _, _, m, hm, e⟩
    · exact .inr ⟨_, e⟩
  | _ => cases hs

/-- A `syscall` that has a next state ends in an outcome of its handler (R340). -/
theorem exec_syscall {code : BitVec 20} {s t : State} (h : exec (.syscall code) s = .next t) :
    ∃ o, s.chosenOutcome = some o ∧ o ∈ s.outcomes ∧
      t = s.countChoice.finishSyscall (encode s.sltuFunct (.syscall code)) o := by
  simp only [exec, execSyscall] at h
  split at h
  · cases h
  · exact ⟨_, ‹_›, State.mem_outcomes_of_chosen ‹_›, (Host.Outcome.next.inj h).symm⟩

/-- What `syscall` leaves alone with every handler: MEM_SIZE, the stored slot of R[0], the parameters, the draws. -/
theorem exec_syscall_keeps {code : BitVec 20} {s t : State} (h : exec (.syscall code) s = .next t) :
    t.mem.size = s.mem.size ∧ t.regs[0] = s.regs[0] ∧ t.sltuFunct = s.sltuFunct ∧ t.handler = s.handler ∧
    t.draws = s.draws := by
  obtain ⟨o, -, -, rfl⟩ := exec_syscall h
  cases o with
  | continueWith es | terminateWith es =>
    obtain ⟨h1, h2, -, h4, h5, h6, -⟩ := s.countChoice.applyEdits_keeps es
    exact ⟨h1, h2, h4, h5, h6⟩

/-! ### A step -/

/-- All that a step can do when it has a next state (R47, R408). -/
theorem step_cases {s t : State} (h : step s = .next t) :
    (∃ r, s.status = .halted r ∧ t = s) ∨
    (s.status = .running ∧ s.fetch = none ∧ t = s.raiseMemoryFault none s.pc) ∨
    (∃ w e, s.status = .running ∧ s.fetch = some w ∧ decode s.sltuFunct w = .error e ∧ t = s.raiseDecodeError w) ∨
    ∃ w i, s.status = .running ∧ s.fetch = some w ∧ decode s.sltuFunct w = .ok i ∧ exec i s = .next t := by
  unfold step State.cycle at h
  split at h
  · exact .inl ⟨_, ‹_›, (Host.Outcome.next.inj h).symm⟩
  · unfold State.runCycle at h
    split at h
    · exact .inr (.inl ⟨‹_›, ‹_›, (Host.Outcome.next.inj h).symm⟩)
    · split at h
      · exact .inr (.inr (.inl ⟨_, _, ‹_›, ‹_›, ‹_›, (Host.Outcome.next.inj h).symm⟩))
      · exact .inr (.inr (.inr ⟨_, _, ‹_›, ‹_›, ‹_›, h⟩))

/-- A step of a running machine whose fetched word decodes (R47). -/
theorem step_of_decode {s : State} {w : Word} {i : Instr} (hr : s.status = .running) (hf : s.fetch = some w)
    (hd : decode s.sltuFunct w = .ok i) : step s = exec i s := by
  simp only [step, State.cycle, hr, State.runCycle, hf, hd]

/-- A step of a halted machine (R48, R407). -/
theorem step_of_halted {s : State} {r : HaltRecord} (h : s.status = .halted r) : step s = .next s := by
  simp only [step, State.cycle, h]

end Sys2Proof.Machine
end

