-- ==== Sys2Proof/Laws/PerInstr.lean ====
section
/-! SUPPORT. One lemma per instruction: its encoded word has the bits that its row of spec/opcode_table.json fixes. The mask
and the match of each row are copied from the table; the match of `sltu` follows SLTU_FUNCT (spec/30_encoding.md R130). -/

namespace Sys2Proof.Laws.EncodeRow

/-- The row's mask. -/
def mask : Instr → Word
  | .j _ => 0xFC000000#32
  | .jal _ => 0xFC000000#32
  | .jr _ => 0xFC00003F#32
  | .jalr _ _ => 0xFC00003F#32
  | .beq _ _ _ => 0xFC000000#32
  | .bne _ _ _ => 0xFC000000#32
  | .blez _ _ => 0xFC000000#32
  | .bgtz _ _ => 0xFC000000#32
  | .lb _ _ _ => 0xFC000000#32
  | .lbu _ _ _ => 0xFC000000#32
  | .lh _ _ _ => 0xFC000000#32
  | .lhu _ _ _ => 0xFC000000#32
  | .lw _ _ _ => 0xFC000000#32
  | .lui _ _ => 0xFC000000#32
  | .sb _ _ _ => 0xFC000000#32
  | .sh _ _ _ => 0xFC000000#32
  | .sw _ _ _ => 0xFC000000#32
  | .addi _ _ _ => 0xFC000000#32
  | .addiu _ _ _ => 0xFC000000#32
  | .ori _ _ _ => 0xFC000000#32
  | .xori _ _ _ => 0xFC000000#32
  | .sll _ _ _ => 0xFC00003F#32
  | .srl _ _ _ => 0xFC00003F#32
  | .sra _ _ _ => 0xFC00003F#32
  | .sllv _ _ _ => 0xFC00003F#32
  | .srlv _ _ _ => 0xFC00003F#32
  | .srav _ _ _ => 0xFC00003F#32
  | .add _ _ _ => 0xFC00003F#32
  | .addu _ _ _ => 0xFC00003F#32
  | .sub _ _ _ => 0xFC00003F#32
  | .subu _ _ _ => 0xFC00003F#32
  | .and _ _ _ => 0xFC00003F#32
  | .or _ _ _ => 0xFC00003F#32
  | .xor _ _ _ => 0xFC00003F#32
  | .nor _ _ _ => 0xFC00003F#32
  | .slt _ _ _ => 0xFC00003F#32
  | .sltu _ _ _ => 0xFC00003F#32
  | .mult _ _ => 0xFC00003F#32
  | .multu _ _ => 0xFC00003F#32
  | .div _ _ => 0xFC00003F#32
  | .divu _ _ => 0xFC00003F#32
  | .mfhi _ => 0xFC00003F#32
  | .mflo _ => 0xFC00003F#32
  | .mthi _ => 0xFC00003F#32
  | .mtlo _ => 0xFC00003F#32
  | .syscall _ => 0xFC00003F#32

/-- The row's match. -/
def value (f : SltuFunct) : Instr → Word
  | .j _ => 0x08000000#32
  | .jal _ => 0x0C000000#32
  | .jr _ => 0x00000008#32
  | .jalr _ _ => 0x00000009#32
  | .beq _ _ _ => 0x10000000#32
  | .bne _ _ _ => 0x14000000#32
  | .blez _ _ => 0x18000000#32
  | .bgtz _ _ => 0x1C000000#32
  | .lb _ _ _ => 0x80000000#32
  | .lbu _ _ _ => 0x90000000#32
  | .lh _ _ _ => 0x84000000#32
  | .lhu _ _ _ => 0x94000000#32
  | .lw _ _ _ => 0x8C000000#32
  | .lui _ _ => 0x3C000000#32
  | .sb _ _ _ => 0xA0000000#32
  | .sh _ _ _ => 0xA4000000#32
  | .sw _ _ _ => 0xAC000000#32
  | .addi _ _ _ => 0x20000000#32
  | .addiu _ _ _ => 0x24000000#32
  | .ori _ _ _ => 0x34000000#32
  | .xori _ _ _ => 0x38000000#32
  | .sll _ _ _ => 0x00000000#32
  | .srl _ _ _ => 0x00000002#32
  | .sra _ _ _ => 0x00000003#32
  | .sllv _ _ _ => 0x00000004#32
  | .srlv _ _ _ => 0x00000006#32
  | .srav _ _ _ => 0x00000007#32
  | .add _ _ _ => 0x00000020#32
  | .addu _ _ _ => 0x00000021#32
  | .sub _ _ _ => 0x00000022#32
  | .subu _ _ _ => 0x00000023#32
  | .and _ _ _ => 0x00000024#32
  | .or _ _ _ => 0x00000025#32
  | .xor _ _ _ => 0x00000026#32
  | .nor _ _ _ => 0x00000027#32
  | .slt _ _ _ => 0x0000002A#32
  | .sltu _ _ _ => (match f with | .f29 => 0x00000029#32 | .f2B => 0x0000002B#32)
  | .mult _ _ => 0x00000018#32
  | .multu _ _ => 0x00000019#32
  | .div _ _ => 0x0000001A#32
  | .divu _ _ => 0x0000001B#32
  | .mfhi _ => 0x00000010#32
  | .mflo _ => 0x00000012#32
  | .mthi _ => 0x00000011#32
  | .mtlo _ => 0x00000013#32
  | .syscall _ => 0x0000000C#32

/-- The encoded word has the row's fixed bits. -/
def Statement (i : Instr) : Prop := ∀ f, encode f i &&& mask i = value f i

end Sys2Proof.Laws.EncodeRow

namespace Sys2Proof.Laws

theorem iWord_row (op : BitVec 6) (rs rt : RegIdx) (imm : Imm16) : iWord op rs rt imm &&& 0xFC000000#32 = op ++ 0#26 := by
  rw [and_opMask, opField_iWord]

theorem jWord_row (op : BitVec 6) (target : Target26) : jWord op target &&& 0xFC000000#32 = op ++ 0#26 := by
  rw [and_opMask, opField_jWord]

theorem rWord_row (rs rt rd : RegIdx) (sh : Shamt) (fn : BitVec 6) :
    rWord rs rt rd sh fn &&& 0xFC00003F#32 = 0#6 ++ 0#20 ++ fn := by
  rw [and_opFunctMask, opField_rWord, functField_rWord]

theorem syscallWord_row (code : BitVec 20) : syscallWord code &&& 0xFC00003F#32 = 0#6 ++ 0#20 ++ 0x0C#6 := by
  rw [and_opFunctMask, opField_syscallWord, functField_syscallWord]

end Sys2Proof.Laws

open Sys2Proof Sys2Proof.Laws

theorem Sys2Proof.Laws.EncodeRow.j (target : Target26) : Sys2Proof.Laws.EncodeRow.Statement (.j target) :=
  fun _ => jWord_row ..

theorem Sys2Proof.Laws.EncodeRow.jal (target : Target26) : Sys2Proof.Laws.EncodeRow.Statement (.jal target) :=
  fun _ => jWord_row ..

theorem Sys2Proof.Laws.EncodeRow.jr (rs : RegIdx) : Sys2Proof.Laws.EncodeRow.Statement (.jr rs) :=
  fun _ => rWord_row ..

theorem Sys2Proof.Laws.EncodeRow.jalr (rd rs : RegIdx) : Sys2Proof.Laws.EncodeRow.Statement (.jalr rd rs) :=
  fun _ => rWord_row ..

theorem Sys2Proof.Laws.EncodeRow.beq (rs rt : RegIdx) (off : Imm16) : Sys2Proof.Laws.EncodeRow.Statement (.beq rs rt off) :=
  fun _ => iWord_row ..

theorem Sys2Proof.Laws.EncodeRow.bne (rs rt : RegIdx) (off : Imm16) : Sys2Proof.Laws.EncodeRow.Statement (.bne rs rt off) :=
  fun _ => iWord_row ..

theorem Sys2Proof.Laws.EncodeRow.blez (rs : RegIdx) (off : Imm16) : Sys2Proof.Laws.EncodeRow.Statement (.blez rs off) :=
  fun _ => iWord_row ..

theorem Sys2Proof.Laws.EncodeRow.bgtz (rs : RegIdx) (off : Imm16) : Sys2Proof.Laws.EncodeRow.Statement (.bgtz rs off) :=
  fun _ => iWord_row ..

theorem Sys2Proof.Laws.EncodeRow.lb (rt rs : RegIdx) (imm : Imm16) : Sys2Proof.Laws.EncodeRow.Statement (.lb rt rs imm) :=
  fun _ => iWord_row ..

theorem Sys2Proof.Laws.EncodeRow.lbu (rt rs : RegIdx) (imm : Imm16) : Sys2Proof.Laws.EncodeRow.Statement (.lbu rt rs imm) :=
  fun _ => iWord_row ..

theorem Sys2Proof.Laws.EncodeRow.lh (rt rs : RegIdx) (imm : Imm16) : Sys2Proof.Laws.EncodeRow.Statement (.lh rt rs imm) :=
  fun _ => iWord_row ..

theorem Sys2Proof.Laws.EncodeRow.lhu (rt rs : RegIdx) (imm : Imm16) : Sys2Proof.Laws.EncodeRow.Statement (.lhu rt rs imm) :=
  fun _ => iWord_row ..

theorem Sys2Proof.Laws.EncodeRow.lw (rt rs : RegIdx) (imm : Imm16) : Sys2Proof.Laws.EncodeRow.Statement (.lw rt rs imm) :=
  fun _ => iWord_row ..

theorem Sys2Proof.Laws.EncodeRow.lui (rt : RegIdx) (imm : Imm16) : Sys2Proof.Laws.EncodeRow.Statement (.lui rt imm) :=
  fun _ => iWord_row ..

theorem Sys2Proof.Laws.EncodeRow.sb (rt rs : RegIdx) (imm : Imm16) : Sys2Proof.Laws.EncodeRow.Statement (.sb rt rs imm) :=
  fun _ => iWord_row ..

theorem Sys2Proof.Laws.EncodeRow.sh (rt rs : RegIdx) (imm : Imm16) : Sys2Proof.Laws.EncodeRow.Statement (.sh rt rs imm) :=
  fun _ => iWord_row ..

theorem Sys2Proof.Laws.EncodeRow.sw (rt rs : RegIdx) (imm : Imm16) : Sys2Proof.Laws.EncodeRow.Statement (.sw rt rs imm) :=
  fun _ => iWord_row ..

theorem Sys2Proof.Laws.EncodeRow.addi (rt rs : RegIdx) (imm : Imm16) : Sys2Proof.Laws.EncodeRow.Statement (.addi rt rs imm) :=
  fun _ => iWord_row ..

theorem Sys2Proof.Laws.EncodeRow.addiu (rt rs : RegIdx) (imm : Imm16) : Sys2Proof.Laws.EncodeRow.Statement (.addiu rt rs imm) :=
  fun _ => iWord_row ..

theorem Sys2Proof.Laws.EncodeRow.ori (rt rs : RegIdx) (imm : Imm16) : Sys2Proof.Laws.EncodeRow.Statement (.ori rt rs imm) :=
  fun _ => iWord_row ..

theorem Sys2Proof.Laws.EncodeRow.xori (rt rs : RegIdx) (imm : Imm16) : Sys2Proof.Laws.EncodeRow.Statement (.xori rt rs imm) :=
  fun _ => iWord_row ..

theorem Sys2Proof.Laws.EncodeRow.sll (rd rt : RegIdx) (shamt : Shamt) : Sys2Proof.Laws.EncodeRow.Statement (.sll rd rt shamt) :=
  fun _ => rWord_row ..

theorem Sys2Proof.Laws.EncodeRow.srl (rd rt : RegIdx) (shamt : Shamt) : Sys2Proof.Laws.EncodeRow.Statement (.srl rd rt shamt) :=
  fun _ => rWord_row ..

theorem Sys2Proof.Laws.EncodeRow.sra (rd rt : RegIdx) (shamt : Shamt) : Sys2Proof.Laws.EncodeRow.Statement (.sra rd rt shamt) :=
  fun _ => rWord_row ..

theorem Sys2Proof.Laws.EncodeRow.sllv (rd rt rs : RegIdx) : Sys2Proof.Laws.EncodeRow.Statement (.sllv rd rt rs) :=
  fun _ => rWord_row ..

theorem Sys2Proof.Laws.EncodeRow.srlv (rd rt rs : RegIdx) : Sys2Proof.Laws.EncodeRow.Statement (.srlv rd rt rs) :=
  fun _ => rWord_row ..

theorem Sys2Proof.Laws.EncodeRow.srav (rd rt rs : RegIdx) : Sys2Proof.Laws.EncodeRow.Statement (.srav rd rt rs) :=
  fun _ => rWord_row ..

theorem Sys2Proof.Laws.EncodeRow.add (rd rs rt : RegIdx) : Sys2Proof.Laws.EncodeRow.Statement (.add rd rs rt) :=
  fun _ => rWord_row ..

theorem Sys2Proof.Laws.EncodeRow.addu (rd rs rt : RegIdx) : Sys2Proof.Laws.EncodeRow.Statement (.addu rd rs rt) :=
  fun _ => rWord_row ..

theorem Sys2Proof.Laws.EncodeRow.sub (rd rs rt : RegIdx) : Sys2Proof.Laws.EncodeRow.Statement (.sub rd rs rt) :=
  fun _ => rWord_row ..

theorem Sys2Proof.Laws.EncodeRow.subu (rd rs rt : RegIdx) : Sys2Proof.Laws.EncodeRow.Statement (.subu rd rs rt) :=
  fun _ => rWord_row ..

theorem Sys2Proof.Laws.EncodeRow.and (rd rs rt : RegIdx) : Sys2Proof.Laws.EncodeRow.Statement (.and rd rs rt) :=
  fun _ => rWord_row ..

theorem Sys2Proof.Laws.EncodeRow.or (rd rs rt : RegIdx) : Sys2Proof.Laws.EncodeRow.Statement (.or rd rs rt) :=
  fun _ => rWord_row ..

theorem Sys2Proof.Laws.EncodeRow.xor (rd rs rt : RegIdx) : Sys2Proof.Laws.EncodeRow.Statement (.xor rd rs rt) :=
  fun _ => rWord_row ..

theorem Sys2Proof.Laws.EncodeRow.nor (rd rs rt : RegIdx) : Sys2Proof.Laws.EncodeRow.Statement (.nor rd rs rt) :=
  fun _ => rWord_row ..

theorem Sys2Proof.Laws.EncodeRow.slt (rd rs rt : RegIdx) : Sys2Proof.Laws.EncodeRow.Statement (.slt rd rs rt) :=
  fun _ => rWord_row ..

theorem Sys2Proof.Laws.EncodeRow.sltu (rd rs rt : RegIdx) : Sys2Proof.Laws.EncodeRow.Statement (.sltu rd rs rt) :=
  fun f => by cases f <;> exact rWord_row ..

theorem Sys2Proof.Laws.EncodeRow.mult (rs rt : RegIdx) : Sys2Proof.Laws.EncodeRow.Statement (.mult rs rt) :=
  fun _ => rWord_row ..

theorem Sys2Proof.Laws.EncodeRow.multu (rs rt : RegIdx) : Sys2Proof.Laws.EncodeRow.Statement (.multu rs rt) :=
  fun _ => rWord_row ..

theorem Sys2Proof.Laws.EncodeRow.div (rs rt : RegIdx) : Sys2Proof.Laws.EncodeRow.Statement (.div rs rt) :=
  fun _ => rWord_row ..

theorem Sys2Proof.Laws.EncodeRow.divu (rs rt : RegIdx) : Sys2Proof.Laws.EncodeRow.Statement (.divu rs rt) :=
  fun _ => rWord_row ..

theorem Sys2Proof.Laws.EncodeRow.mfhi (rd : RegIdx) : Sys2Proof.Laws.EncodeRow.Statement (.mfhi rd) :=
  fun _ => rWord_row ..

theorem Sys2Proof.Laws.EncodeRow.mflo (rd : RegIdx) : Sys2Proof.Laws.EncodeRow.Statement (.mflo rd) :=
  fun _ => rWord_row ..

theorem Sys2Proof.Laws.EncodeRow.mthi (rs : RegIdx) : Sys2Proof.Laws.EncodeRow.Statement (.mthi rs) :=
  fun _ => rWord_row ..

theorem Sys2Proof.Laws.EncodeRow.mtlo (rs : RegIdx) : Sys2Proof.Laws.EncodeRow.Statement (.mtlo rs) :=
  fun _ => rWord_row ..

theorem Sys2Proof.Laws.EncodeRow.syscall (code : BitVec 20) : Sys2Proof.Laws.EncodeRow.Statement (.syscall code) :=
  fun _ => syscallWord_row ..
end

