-- ==== Sys2Proof/Tests/Slice0.lean ====
section
/-! SUPPORT. Tests. Every expected value is the spec's: spec/95_test_vectors.md where no other place is named. The words are
those of the spec's examples; the tests of a step run one step on MEM_SIZE = 0x100, as the conventions of that file say. -/

open Sys2Proof Sys2Proof.Machine

namespace Sys2Proof.Tests

/-! ### Helpers -/

/-- The state after construction at `pc`, with 0x100 bytes of MEM, the word stored at `pc`, and some registers set. -/
def vec (pc w : Word) (regs : List (RegIdx × Word)) : State :=
  regs.foldl (fun s r => s.writeReg r.1 r.2) ((State.new pc).setMem ((⟨0x100, []⟩ : Memory).store pc.toNat w .word))

/-- MEM[0x40..0x47] of the load vectors. -/
def loadVec (w : Word) (regs : List (RegIdx × Word)) : State :=
  (vec 0#32 w regs).setMem (((vec 0#32 w []).mem.store 0x40 0x80818283#32 .word).store 0x44 0x7F010203#32 .word)

/-- The state that a step leaves (the state itself where there is none). -/
def after (s : State) : State :=
  match step s with
  | .next t => t
  | _ => s

/-- The step has a next state; register `k` and the pc in it. -/
def regPc (s : State) (k : RegIdx) : Option (Word × Word) :=
  match step s with
  | .next t => some (t.readReg k, t.pc)
  | _ => none

/-- The step has a next state; HI and LO in it. -/
def hiLo (s : State) : Option (Word × Word) :=
  match step s with
  | .next t => some (t.hi, t.lo)
  | _ => none

/-- The step has a next state; the bytes from `a` on in it. -/
def bytes (s : State) (a n : Nat) : Option (List Byte) :=
  match step s with
  | .next t => some ((List.range n).map fun k => t.mem.readByte (a + k))
  | _ => none

/-- The step has a next state; its status and pc. -/
def statusPc (s : State) : Option (Status × Word) :=
  match step s with
  | .next t => some (t.status, t.pc)
  | _ => none

/-! ### Decoding: one word of every instruction, from the spec's example of it, in the layout of R121 to R124 -/

theorem test_decode_j : decode .f29 0x08100000#32 = .ok (.j 0x0100000#26) := by decide

theorem test_decode_jal : decode .f29 0x0C000004#32 = .ok (.jal 4#26) := by decide

theorem test_decode_jr : decode .f29 0x00A00008#32 = .ok (.jr 5) := by decide

theorem test_decode_jalr : decode .f29 0x0120F809#32 = .ok (.jalr 31 9) := by decide

theorem test_decode_beq : decode .f29 0x10220003#32 = .ok (.beq 1 2 3#16) := by decide

theorem test_decode_bne : decode .f29 0x1401FFFE#32 = .ok (.bne 0 1 0xFFFE#16) := by decide

theorem test_decode_blez : decode .f29 0x1880FFFF#32 = .ok (.blez 4 0xFFFF#16) := by decide

theorem test_decode_bgtz : decode .f29 0x1C800004#32 = .ok (.bgtz 4 4#16) := by decide

theorem test_decode_lb : decode .f29 0x80620001#32 = .ok (.lb 2 3 1#16) := by decide

theorem test_decode_lbu : decode .f29 0x90620001#32 = .ok (.lbu 2 3 1#16) := by decide

theorem test_decode_lh : decode .f29 0x84620002#32 = .ok (.lh 2 3 2#16) := by decide

theorem test_decode_lhu : decode .f29 0x94620002#32 = .ok (.lhu 2 3 2#16) := by decide

theorem test_decode_lw : decode .f29 0x8C62FFFC#32 = .ok (.lw 2 3 0xFFFC#16) := by decide

theorem test_decode_lui : decode .f29 0x3C011234#32 = .ok (.lui 1 0x1234#16) := by decide

theorem test_decode_sb : decode .f29 0xA0620000#32 = .ok (.sb 2 3 0#16) := by decide

theorem test_decode_sh : decode .f29 0xA4620000#32 = .ok (.sh 2 3 0#16) := by decide

theorem test_decode_sw : decode .f29 0xAC080200#32 = .ok (.sw 8 0 0x0200#16) := by decide

theorem test_decode_addi : decode .f29 0x2022FFFF#32 = .ok (.addi 2 1 0xFFFF#16) := by decide

theorem test_decode_addiu : decode .f29 0x24228000#32 = .ok (.addiu 2 1 0x8000#16) := by decide

theorem test_decode_ori : decode .f29 0x34028000#32 = .ok (.ori 2 0 0x8000#16) := by decide

theorem test_decode_xori : decode .f29 0x38228000#32 = .ok (.xori 2 1 0x8000#16) := by decide

theorem test_decode_sll : decode .f29 0x000117C0#32 = .ok (.sll 2 1 31#5) := by decide

theorem test_decode_srl : decode .f29 0x00011102#32 = .ok (.srl 2 1 4#5) := by decide

theorem test_decode_sra : decode .f29 0x000117C3#32 = .ok (.sra 2 1 31#5) := by decide

theorem test_decode_sllv : decode .f29 0x00611004#32 = .ok (.sllv 2 1 3) := by decide

theorem test_decode_srlv : decode .f29 0x00611006#32 = .ok (.srlv 2 1 3) := by decide

theorem test_decode_srav : decode .f29 0x00611007#32 = .ok (.srav 2 1 3) := by decide

theorem test_decode_add : decode .f29 0x00221820#32 = .ok (.add 3 1 2) := by decide

theorem test_decode_addu : decode .f29 0x00221821#32 = .ok (.addu 3 1 2) := by decide

theorem test_decode_sub : decode .f29 0x00221822#32 = .ok (.sub 3 1 2) := by decide

theorem test_decode_subu : decode .f29 0x00221823#32 = .ok (.subu 3 1 2) := by decide

theorem test_decode_and : decode .f29 0x00221824#32 = .ok (.and 3 1 2) := by decide

theorem test_decode_or : decode .f29 0x00221825#32 = .ok (.or 3 1 2) := by decide

theorem test_decode_xor : decode .f29 0x00221826#32 = .ok (.xor 3 1 2) := by decide

theorem test_decode_nor : decode .f29 0x00221827#32 = .ok (.nor 3 1 2) := by decide

theorem test_decode_slt : decode .f29 0x0022182A#32 = .ok (.slt 3 1 2) := by decide

theorem test_decode_sltu : decode .f29 0x00221829#32 = .ok (.sltu 3 1 2) := by decide

theorem test_decode_mult : decode .f29 0x00850018#32 = .ok (.mult 4 5) := by decide

theorem test_decode_multu : decode .f29 0x00220019#32 = .ok (.multu 1 2) := by decide

theorem test_decode_div : decode .f29 0x0085001A#32 = .ok (.div 4 5) := by decide

theorem test_decode_divu : decode .f29 0x0022001B#32 = .ok (.divu 1 2) := by decide

theorem test_decode_mfhi : decode .f29 0x00001810#32 = .ok (.mfhi 3) := by decide

theorem test_decode_mflo : decode .f29 0x00002012#32 = .ok (.mflo 4) := by decide

theorem test_decode_mthi : decode .f29 0x00200011#32 = .ok (.mthi 1) := by decide

theorem test_decode_mtlo : decode .f29 0x00200013#32 = .ok (.mtlo 1) := by decide

theorem test_decode_syscall : decode .f29 0x0000000C#32 = .ok (.syscall 0#20) := by decide

/-- R130 with SLTU_FUNCT = 0x2B, and C2: funct 0x2B is no instruction with the default. -/
theorem test_decode_sltu_parameter : decode .f2B 0x0022182B#32 = .ok (.sltu 3 1 2) ∧
    decode .f2B 0x00221829#32 = .error (.unknownFunct 0x29#6) ∧
    decode .f29 0x0022182B#32 = .error (.unknownFunct 0x2B#6) := by decide

/-- The words that section 2.6 gives a DecodeError: break, andi, slti, COP0. -/
theorem test_decode_rejects : decode .f29 0x0000000D#32 = .error (.unknownFunct 0x0D#6) ∧
    decode .f29 0x302200FF#32 = .error (.unknownOpcode 0x0C#6) ∧
    decode .f29 0x28220001#32 = .error (.unknownOpcode 0x0A#6) ∧
    decode .f29 0x40000000#32 = .error (.unknownOpcode 0x10#6) := by decide

/-- Ignored fields (R127): `jr $31` with rd = 3 and shamt = 5, `sll $2,$1,1` with rs = 5. -/
theorem test_decode_ignored_fields : decode .f29 0x03E01948#32 = .ok (.jr 31) ∧
    decode .f29 0x00A11040#32 = .ok (.sll 2 1 1#5) := by decide

/-- Four bytes in the order of their addresses (R84, S1), a rest left over, and fewer than four bytes. -/
theorem test_decode_bytes :
    decodeBytes .f29 [0x24#8, 0x08#8, 0x00#8, 0x05#8, 0xAB#8] = .ok (.addiu 8 0 5#16, [0xAB#8]) ∧
    decodeBytes .f29 [0x24#8, 0x08#8, 0x00#8] = .error .truncated := by decide

/-- The opcode table's numbering: bit 0 is the word's least significant bit. -/
theorem test_decodeTableWord : decodeTableWord 32 0x24080005 = some (.addiu 8 0 5#16) ∧
    decodeTableWord 32 0x0022182B = none := by decide

/-- The encoder gives back the words of the spec's examples (R122 to R124). -/
theorem test_encode : encode .f29 (.addiu 8 0 5#16) = 0x24080005#32 ∧ encode .f29 (.jalr 31 9) = 0x0120F809#32 ∧
    encode .f29 (.jal 4#26) = 0x0C000004#32 ∧ encode .f29 (.sw 8 0 0x0200#16) = 0xAC080200#32 ∧
    encode .f2B (.sltu 3 1 2) = 0x0022182B#32 := by decide

/-! ### Reset, the image check, the placing of a word -/

/-- R450, R452: nothing is loaded at reset, and the first step halts at the fetch. -/
theorem test_reset : State.reset.pc = 0#32 ∧ State.reset.mem = ⟨0, []⟩ ∧
    statusPc State.reset = some (.halted ⟨.memoryFault, 0#32, none, some 0#32⟩, 0#32) := by decide

theorem test_withFetchWord : regPc (State.reset.withFetchWord 32 0x24080005) 8 = some (5#32, 4#32) := by decide

/-- The image check refuses 2^32 bytes (R9, R406). -/
theorem test_wellFormed_image_too_long : imageWellFormed (List.replicate 4294967296 0#8) = false := by
  simp only [imageWellFormed, List.length_replicate, maxImageLength]; decide

theorem test_wellFormed_image : imageWellFormed [0x24#8, 0x08#8, 0x00#8, 0x05#8] = true := by decide

/-- There is no instruction that the check of instructions could refuse (R141, R142); it accepts. -/
theorem test_wellFormed_instruction : (Instr.syscall 0xFFFFF#20).wellFormed = true := by decide

/-- The canonical form refuses a listed zero, an address from MEM_SIZE on, addresses that do not rise, a size of 2^32. -/
theorem test_memory_wf_refuses : (⟨4, [(0, 0#8)]⟩ : Memory).wf = false ∧ (⟨4, [(4, 1#8)]⟩ : Memory).wf = false ∧
    (⟨4, [(2, 1#8), (1, 1#8)]⟩ : Memory).wf = false ∧ (⟨4, [(1, 1#8), (1, 2#8)]⟩ : Memory).wf = false ∧
    (⟨4294967296, []⟩ : Memory).wf = false := by decide

/-- A halt record that R400 or R403 forbids is refused. -/
theorem test_haltRecord_refuses : HaltRecord.wellFormed ⟨.registerIndexFault, 0#32, some 0#32, none⟩ 0#32 = false ∧
    HaltRecord.wellFormed ⟨.decodeError, 0#32, none, none⟩ 0#32 = false ∧
    HaltRecord.wellFormed ⟨.memoryFault, 4#32, none, some 0#32⟩ 4#32 = false ∧
    HaltRecord.wellFormed ⟨.terminated, 0#32, none, none⟩ 0#32 = false := by decide

/-- R451: the image's bytes are MEM, byte 0 at address 0; misaligned fetch (section 2.6, R87). -/
theorem test_load_misaligned_fetch :
    (match State.launch 1#32 [0x00#8, 0x24#8, 0x08#8, 0x00#8, 0x05#8, 0x00#8, 0x00#8, 0x00#8] with
      | .ok s => regPc s 8
      | .error _ => none) = some (5#32, 5#32) := by decide

/-! ### One step -/

theorem test_j : regPc (vec 0x40#32 0x0BFFFFFF#32 []) 31 = some (0x0#32, 0xFFFFFFC#32) := by decide

theorem test_jal : regPc (vec 0x8#32 0x0C000004#32 []) 31 = some (0xC#32, 0x10#32) := by decide

theorem test_jr_unaligned : regPc (vec 0x0#32 0x00A00008#32 [(5, 0x13#32)]) 5 = some (0x13#32, 0x13#32) := by decide

theorem test_jalr_same_register : regPc (vec 0x20#32 0x01204809#32 [(9, 0x80#32)]) 9 = some (0x24#32, 0x80#32) := by decide

theorem test_jalr_zero_link : regPc (vec 0x20#32 0x01200009#32 [(9, 0x80#32)]) 0 = some (0x0#32, 0x80#32) := by decide

theorem test_beq_taken : regPc (vec 0x10#32 0x10220003#32 [(1, 0x7#32), (2, 0x7#32)]) 0 = some (0x0#32, 0x20#32) := by decide

theorem test_beq_wraps : regPc (vec 0x10#32 0x1000FFF8#32 []) 0 = some (0x0#32, 0xFFFFFFF4#32) := by decide

/-- S5. -/
theorem test_bne_taken : regPc (vec 0x20#32 0x1401FFFE#32 [(1, 0x1#32)]) 0 = some (0x0#32, 0x1C#32) := by decide

theorem test_bne_not_taken : regPc (vec 0x20#32 0x1401FFFE#32 []) 0 = some (0x0#32, 0x24#32) := by decide

theorem test_blez_negative : regPc (vec 0x10#32 0x1880FFFF#32 [(4, 0x80000000#32)]) 0 = some (0x0#32, 0x10#32) := by decide

theorem test_blez_positive : regPc (vec 0x10#32 0x1880FFFF#32 [(4, 0x1#32)]) 0 = some (0x0#32, 0x14#32) := by decide

theorem test_bgtz_positive : regPc (vec 0x10#32 0x1C800004#32 [(4, 0x7FFFFFFF#32)]) 0 = some (0x0#32, 0x24#32) := by decide

theorem test_bgtz_negative : regPc (vec 0x10#32 0x1C800004#32 [(4, 0x80000000#32)]) 0 = some (0x0#32, 0x14#32) := by decide

theorem test_lb : regPc (loadVec 0x80020040#32 []) 2 = some (0xFFFFFF80#32, 4#32) := by decide

theorem test_lbu : regPc (loadVec 0x90020040#32 []) 2 = some (0x80#32, 4#32) := by decide

theorem test_lh_misaligned : regPc (loadVec 0x84020041#32 []) 2 = some (0xFFFF8182#32, 4#32) := by decide

theorem test_lhu : regPc (loadVec 0x94020040#32 []) 2 = some (0x8081#32, 4#32) := by decide

theorem test_lw_negative_offset : regPc (loadVec 0x8C62FFFC#32 [(3, 0x48#32)]) 2 = some (0x7F010203#32, 4#32) := by decide

/-- `lw $2,0xFD($0)` crosses the end: no register is written. -/
theorem test_lw_crosses_the_end : statusPc (vec 0#32 0x8C0200FD#32 [(2, 0x55#32)]) =
    some (.halted ⟨.memoryFault, 0#32, some 0x8C0200FD#32, some 0xFD#32⟩, 0#32) ∧
    regPc (vec 0#32 0x8C0200FD#32 [(2, 0x55#32)]) 2 = some (0x55#32, 0#32) := by decide

theorem test_lui : regPc (vec 0x0#32 0x3C011234#32 [(1, 0xFFFFFFFF#32)]) 1 = some (0x12340000#32, 0x4#32) := by decide

theorem test_lui_zero_register : regPc (vec 0x0#32 0x3C001234#32 []) 0 = some (0x0#32, 0x4#32) := by decide

theorem test_sb : bytes (vec 0#32 0xA0020080#32 [(2, 0x11223344#32)]) 0x80 4 = some [0x44#8, 0x00#8, 0x00#8, 0x00#8] := by decide

theorem test_sh : bytes (vec 0#32 0xA4020080#32 [(2, 0x11223344#32)]) 0x80 4 = some [0x33#8, 0x44#8, 0x00#8, 0x00#8] := by decide

/-- `sh $2,0xFF($0)` crosses the end: not even the byte at 0xFF is written. -/
theorem test_sh_crosses_the_end : bytes (vec 0#32 0xA40200FF#32 [(2, 0x11223344#32)]) 0xFC 4 = some [0#8, 0#8, 0#8, 0#8] ∧
    statusPc (vec 0#32 0xA40200FF#32 [(2, 0x11223344#32)]) =
      some (.halted ⟨.memoryFault, 0#32, some 0xA40200FF#32, some 0xFF#32⟩, 0#32) := by decide

theorem test_sw_misaligned : bytes (vec 0#32 0xAC020081#32 [(2, 0x11223344#32)]) 0x80 8 = some [0x00#8, 0x11#8, 0x22#8, 0x33#8, 0x44#8, 0x00#8, 0x00#8, 0x00#8] := by decide

theorem test_addi_overflow : regPc (vec 0x0#32 0x20220001#32 [(1, 0x7FFFFFFF#32)]) 2 = some (0x80000000#32, 0x4#32) := by decide

theorem test_addi_negative : regPc (vec 0x0#32 0x2022FFFF#32 []) 2 = some (0xFFFFFFFF#32, 0x4#32) := by decide

theorem test_addiu_sign_extends : regPc (vec 0x0#32 0x24228000#32 []) 2 = some (0xFFFF8000#32, 0x4#32) := by decide

theorem test_addiu_zero_register : regPc (vec 0x0#32 0x24000005#32 []) 0 = some (0x0#32, 0x4#32) := by decide

theorem test_ori : regPc (vec 0x0#32 0x34215678#32 [(1, 0x12340000#32)]) 1 = some (0x12345678#32, 0x4#32) := by decide

theorem test_ori_zero_extends : regPc (vec 0x0#32 0x34028000#32 []) 2 = some (0x8000#32, 0x4#32) := by decide

theorem test_xori_zero_extends : regPc (vec 0x0#32 0x3822FFFF#32 [(1, 0xFFFFFFFF#32)]) 2 = some (0xFFFF0000#32, 0x4#32) := by decide

theorem test_sll : regPc (vec 0x0#32 0x00011100#32 [(1, 0x80000001#32)]) 2 = some (0x10#32, 0x4#32) := by decide

theorem test_sll_zero_word : regPc (vec 0x0#32 0x00000000#32 []) 0 = some (0x0#32, 0x4#32) := by decide

theorem test_srl : regPc (vec 0x0#32 0x00011102#32 [(1, 0x80000010#32)]) 2 = some (0x8000001#32, 0x4#32) := by decide

theorem test_sra_negative : regPc (vec 0x0#32 0x00011103#32 [(1, 0x80000010#32)]) 2 = some (0xF8000001#32, 0x4#32) := by decide

theorem test_sra_positive : regPc (vec 0x0#32 0x00011103#32 [(1, 0x70000010#32)]) 2 = some (0x7000001#32, 0x4#32) := by decide

theorem test_sllv_takes_five_bits : regPc (vec 0x0#32 0x00611004#32 [(1, 0x1#32), (3, 0x24#32)]) 2 = some (0x10#32, 0x4#32) := by decide

theorem test_srlv_by_32 : regPc (vec 0x0#32 0x00611006#32 [(1, 0x80000000#32), (3, 0x20#32)]) 2 = some (0x80000000#32, 0x4#32) := by decide

theorem test_srlv_by_31 : regPc (vec 0x0#32 0x00611006#32 [(1, 0x80000000#32), (3, 0x1F#32)]) 2 = some (0x1#32, 0x4#32) := by decide

theorem test_srav : regPc (vec 0x0#32 0x00611007#32 [(1, 0x80000000#32), (3, 0xFFFFFFFF#32)]) 2 = some (0xFFFFFFFF#32, 0x4#32) := by decide

theorem test_add_overflow : regPc (vec 0x0#32 0x00221820#32 [(1, 0x7FFFFFFF#32), (2, 0x1#32)]) 3 = some (0x80000000#32, 0x4#32) := by decide

theorem test_addu_carry : regPc (vec 0x0#32 0x00221821#32 [(1, 0xFFFFFFFF#32), (2, 0x2#32)]) 3 = some (0x1#32, 0x4#32) := by decide

theorem test_addu_one_register : regPc (vec 0x0#32 0x00210821#32 [(1, 0x40000000#32)]) 1 = some (0x80000000#32, 0x4#32) := by decide

theorem test_sub_overflow : regPc (vec 0x0#32 0x00221822#32 [(1, 0x80000000#32), (2, 0x1#32)]) 3 = some (0x7FFFFFFF#32, 0x4#32) := by decide

theorem test_subu_borrow : regPc (vec 0x0#32 0x00221823#32 [(2, 0x1#32)]) 3 = some (0xFFFFFFFF#32, 0x4#32) := by decide

theorem test_and : regPc (vec 0x0#32 0x00221824#32 [(1, 0xF0F0F0F0#32), (2, 0xFF00FF00#32)]) 3 = some (0xF000F000#32, 0x4#32) := by decide

theorem test_or : regPc (vec 0x0#32 0x00221825#32 [(1, 0xF0F0F0F0#32), (2, 0xFF00FF00#32)]) 3 = some (0xFFF0FFF0#32, 0x4#32) := by decide

theorem test_xor : regPc (vec 0x0#32 0x00221826#32 [(1, 0xF0F0F0F0#32), (2, 0xFF00FF00#32)]) 3 = some (0xFF00FF0#32, 0x4#32) := by decide

theorem test_nor : regPc (vec 0x0#32 0x00221827#32 [(1, 0xF0F0F0F0#32), (2, 0xFF00FF00#32)]) 3 = some (0xF000F#32, 0x4#32) := by decide

theorem test_slt : regPc (vec 0x0#32 0x0022182A#32 [(1, 0x80000000#32), (2, 0x7FFFFFFF#32)]) 3 = some (0x1#32, 0x4#32) := by decide

theorem test_slt_equal : regPc (vec 0x0#32 0x0022182A#32 [(1, 0x5#32), (2, 0x5#32)]) 3 = some (0x0#32, 0x4#32) := by decide

/-- S4. -/
theorem test_sltu : regPc (vec 0x0#32 0x00221829#32 [(1, 0xFFFFFFFF#32), (2, 0x1#32)]) 3 = some (0x0#32, 0x4#32) := by decide

theorem test_mult_negative : hiLo (vec 0#32 0x00220018#32 [(1, 0xFFFFFFFF#32), (2, 0x2#32)]) = some (0xFFFFFFFF#32, 0xFFFFFFFE#32) := by decide

theorem test_mult_mixed : hiLo (vec 0#32 0x00220018#32 [(1, 0x80000000#32), (2, 0x7FFFFFFF#32)]) = some (0xC0000000#32, 0x80000000#32) := by decide

theorem test_multu : hiLo (vec 0#32 0x00220019#32 [(1, 0xFFFFFFFF#32), (2, 0xFFFFFFFF#32)]) = some (0xFFFFFFFE#32, 0x1#32) := by decide

theorem test_div_negative_dividend : hiLo (vec 0#32 0x0022001A#32 [(1, 0xFFFFFFF9#32), (2, 0x2#32)]) = some (0xFFFFFFFF#32, 0xFFFFFFFD#32) := by decide

theorem test_div_overflow : hiLo (vec 0#32 0x0022001A#32 [(1, 0x80000000#32), (2, 0xFFFFFFFF#32)]) = some (0x0#32, 0x80000000#32) := by decide

theorem test_divu : hiLo (vec 0#32 0x0022001B#32 [(1, 0x80000000#32), (2, 0xFFFFFFFF#32)]) = some (0x80000000#32, 0x0#32) := by decide

/-- `div`, `divu` by zero: the machine goes on, and HI and LO are two draws, whatever they are. -/
theorem test_div_by_zero : statusPc (vec 0#32 0x0022001A#32 [(1, 5#32)]) = some (.running, 4#32) ∧
    hiLo (vec 0#32 0x0022001A#32 [(1, 5#32)]) = some (Config.draw32 0, Config.draw32 1) := ⟨by decide, rfl⟩

theorem test_divu_by_zero : statusPc (vec 0#32 0x0022001B#32 [(1, 5#32)]) = some (.running, 4#32) ∧
    hiLo (vec 0#32 0x0022001B#32 [(1, 5#32)]) = some (Config.draw32 0, Config.draw32 1) := ⟨by decide, rfl⟩

theorem test_mfhi : regPc ((vec 0#32 0x00001810#32 []).setHi 0xFFFFFFFE#32) 3 = some (0xFFFFFFFE#32, 4#32) := by decide

theorem test_mfhi_zero_register : regPc ((vec 0#32 0x00000010#32 []).setHi 0xFFFFFFFE#32) 0 = some (0#32, 4#32) := by decide

theorem test_mflo : regPc ((vec 0#32 0x00002012#32 []).setLo 1#32) 4 = some (1#32, 4#32) := by decide

theorem test_mthi : hiLo ((vec 0#32 0x00200011#32 [(1, 0xCAFEBABE#32)]).setLo 0x77#32) =
    some (0xCAFEBABE#32, 0x77#32) := by decide

theorem test_mtlo : hiLo ((vec 0#32 0x00200013#32 [(1, 0xCAFEBABE#32)]).setHi 0x77#32) =
    some (0x77#32, 0xCAFEBABE#32) := by decide

/-- `syscall` with the default handler, and with one that gives Continue(s1), s1.pc = 0x100, s1.R[2] = 7, s1.R[0] = 5. -/
theorem test_syscall_continue : statusPc (vec 0x40#32 0x0000000C#32 []) = some (.running, 0x44#32) ∧
    (let s := (vec 0x40#32 0x0000000C#32 []).setHandler
       (.constant [.continueWith [.pc 0x100#32, .reg 2 7#32, .reg 0 5#32]])
     regPc s 2 = some (7#32, 0x104#32) ∧ regPc s 0 = some (0#32, 0x104#32)) := by decide

/-- `syscall` with a handler that gives Terminate(s): the pc is not advanced. -/
theorem test_syscall_terminate : statusPc ((vec 0x40#32 0x0000000C#32 []).setHandler (.constant [.terminateWith []])) =
    some (.halted ⟨.terminated, 0x40#32, some 0x0000000C#32, none⟩, 0x40#32) := by decide

/-- Section 2.6: a word that is no instruction, a fetch across the end, a step of a halted machine. -/
theorem test_decodeError : statusPc (vec 0x40#32 0x302200FF#32 []) =
    some (.halted ⟨.decodeError, 0x40#32, some 0x302200FF#32, none⟩, 0x40#32) := by decide

theorem test_fetch_across_the_end : statusPc ((vec 0#32 0#32 []).setPc 0xFE#32) =
    some (.halted ⟨.memoryFault, 0xFE#32, none, some 0xFE#32⟩, 0xFE#32) := by decide

theorem test_halted_stays : after (after State.reset) = after State.reset := by decide

/-! ### Witnesses: concrete states and operands that meet the hypotheses of each statement together -/

/-- `jr $31` with ignored fields set, at 0x10. -/
def jrState : State := vec 0x10#32 0x03E01948#32 [(31, 0xC#32)]

/-- `lw $2,0xFD($0)`: one byte too far. -/
def faultState : State := vec 0#32 0x8C0200FD#32 [(2, 0x55#32)]

/-- A `syscall` that terminates after an edit. -/
def endState : State := (vec 0x40#32 0x0000000C#32 []).setHandler (.constant [.terminateWith [.reg 2 7#32]])

/-- A `syscall` that continues after edits. -/
def goOnState : State := (vec 0x40#32 0x0000000C#32 []).setHandler
  (.constant [.continueWith [.pc 0x100#32, .byte 0xFF#32 1#8]])

/-- A `syscall` whose handler gives no outcome. -/
def stuckState : State := (vec 0x40#32 0x0000000C#32 []).setHandler (.constant [])

/-- A register that holds `b`, for an access at `b`. -/
def baseState (b : Word) : State := vec 0#32 0#32 [(3, b), (2, 0x11223344#32)]

theorem witness_LoadFillsMemoryOrFailsForLength : [0x24#8].length ≤ 4294967295 ∧
    4294967295 < (List.replicate 4294967296 0#8).length := by
  rw [List.length_replicate]; decide

theorem witness_StepRunsTheDecodedInstruction : jrState.status = .running ∧ jrState.pc.toNat + 3 < jrState.mem.size ∧
    0x03E01948#32 = jrState.mem.readByte jrState.pc.toNat ++ jrState.mem.readByte (jrState.pc.toNat + 1) ++
      jrState.mem.readByte (jrState.pc.toNat + 2) ++ jrState.mem.readByte (jrState.pc.toNat + 3) ∧
    decode jrState.sltuFunct 0x03E01948#32 = .ok (.jr 31) := by decide

/-- At the boundary: the last fetch in bounds is at 0xFC, the first out of bounds at 0xFD. -/
theorem witness_FetchOutOfBoundsHaltsBeforeDecoding : (vec 0xFD#32 0#32 []).status = .running ∧
    (vec 0xFD#32 0#32 []).mem.size ≤ (vec 0xFD#32 0#32 []).pc.toNat + 3 ∧
    (vec 0xFC#32 0#32 []).fetch = some 0#32 := by decide

theorem witness_UnmappedWordHaltsWithDecodeError : (vec 0#32 0x0000000D#32 []).status = .running ∧
    (vec 0#32 0x0000000D#32 []).fetch = some 0x0000000D#32 ∧
    ¬ Mapped (vec 0#32 0x0000000D#32 []).sltuFunct 0x0000000D#32 := by unfold Mapped; decide

theorem witness_HaltedMachineNeverChanges : (after State.reset).status =
    .halted ⟨.memoryFault, 0#32, none, some 0#32⟩ := by decide

/-- All three results: Next, Terminated, Halt. -/
theorem witness_StepResultTellsTheEmbedderTheThreeOutcomes :
    (jrState.status = .running ∧ step jrState = .next (after jrState) ∧ (after jrState).status = .running) ∧
    (endState.status = .running ∧ step endState = .next (after endState) ∧ (after endState).result = .terminated) ∧
    (faultState.status = .running ∧ step faultState = .next (after faultState) ∧
      (after faultState).result = .halt ⟨.memoryFault, 0#32, some 0x8C0200FD#32, some 0xFD#32⟩) :=
  ⟨⟨by decide, rfl, by decide⟩, ⟨by decide, rfl, by decide⟩, ⟨by decide, rfl, by decide⟩⟩

/-- Each width at the last address in bounds, for MemRead and MemWrite. -/
theorem witness_MemRead_and_MemWrite : (0xFF#32).toNat < 0x100 ∧ (0xFE#32).toNat + 1 < 0x100 ∧
    (0xFC#32).toNat + 3 < 0x100 := by decide

theorem witness_BoundsCheckDoesNotWrap : jrState.mem.size ≤ 4294967295 ∧
    0xFFFFFFFC ≤ (jrState.setPc 0xFFFFFFFC#32).pc.toNat ∧ (jrState.mem.read 0xFD#32 .word = none) ∧
    (jrState.mem.write 0xFF#32 .half 0#32 = none) := by decide

theorem witness_MixedWidthViewsAgree : jrState.mem.wf = true ∧
    (jrState.mem.write 0xFC#32 .word 0x80818283#32).isSome = true ∧
    (jrState.mem.write 0xFE#32 .half 0x80818283#32).isSome = true := by decide

/-- Writing a byte and writing zero over it gives back the memory, as data. -/
theorem witness_EveryMemoryWriteKeepsTheCanonicalForm : jrState.mem.wf = true ∧
    (jrState.mem.write 0xFF#32 .byte 0x11#32).isSome = true ∧
    ((jrState.mem.writeByte 0xFF 0x11#8).writeByte 0xFF 0#8).wf = true ∧
    (jrState.mem.writeByte 0xFF 0x11#8).writeByte 0xFF 0#8 = jrState.mem := by decide

/-- Words with non-zero ignored bits decode (sll, jr, mult, lui); two words of jr agree outside its ignored bits. -/
theorem witness_EncodeOfDecode_and_IgnoredFields : decode .f29 0x00A11040#32 = .ok (.sll 2 1 1#5) ∧
    decode .f29 0x0022FFD8#32 = .ok (.mult 1 2) ∧ decode .f29 0x3CA11234#32 = .ok (.lui 1 0x1234#16) ∧
    decode .f29 0x03E01948#32 = .ok (.jr 31) ∧
    0x03E01948#32 &&& ~~~ (ignoredMask (.jr 31)) = 0x03E00008#32 &&& ~~~ (ignoredMask (.jr 31)) := by decide

/-- Every op of the map of R129 but 0 is the op of some word; so is every funct of R130, with op 0. -/
theorem witness_EncodedBy : (mappedOps.all fun o => opField (o ++ 0#26) == o) = true ∧
    ((0x29#6 :: 0x2B#6 :: mappedFuncts).all fun c => (opField (0#26 ++ c) == 0#6) && (functField (0#26 ++ c) == c)) = true := by
  decide

/-- Branches taken and not taken, at the ends of the offset's range. -/
theorem witness_TransferTargetsReachAndAlign : (∃ t, exec (.j 0x3FFFFFF#26) jrState = .next t) ∧
    (∃ t, exec (.jal 1#26) jrState = .next t) ∧ (∃ t, exec (.beq 0 0 0x8000#16) jrState = .next t) ∧
    (∃ t, exec (.bne 0 31 0x7FFF#16) jrState = .next t) ∧ (∃ t, exec (.blez 31 1#16) jrState = .next t) ∧
    ∃ t, exec (.bgtz 31 1#16) jrState = .next t :=
  ⟨⟨_, rfl⟩, ⟨_, rfl⟩, ⟨_, rfl⟩, ⟨_, rfl⟩, ⟨_, rfl⟩, ⟨_, rfl⟩⟩

/-- A later state, with other registers and pc, that still holds the link. -/
theorem witness_JalThenJrReturns : ∃ t u, exec (.jal 4#26) jrState = .next t ∧
    u = (t.writeReg 2 5#32).setPc 0x80#32 ∧ u.readReg 31 = t.readReg 31 := ⟨_, _, rfl, rfl, by decide⟩

/-- The last address in bounds for each width, the base just above MEM_SIZE and the displacement negative. -/
theorem witness_loads_and_stores_in_bounds :
    ((baseState 0x100#32).effectiveAddress 3 0xFFFF#16).toNat < (baseState 0x100#32).mem.size ∧
    ((baseState 0x100#32).effectiveAddress 3 0xFFFE#16).toNat + 1 < (baseState 0x100#32).mem.size ∧
    ((baseState 0x100#32).effectiveAddress 3 0xFFFC#16).toNat + 3 < (baseState 0x100#32).mem.size ∧ (2 : RegIdx) ≠ 0 := by
  decide

/-- The first address out of bounds for each width; and 0xFFFFFFFF, which does not wrap. -/
theorem witness_AccessesOutOfBoundsHaltPrecisely :
    (baseState 0x100#32).mem.size ≤ ((baseState 0x100#32).effectiveAddress 3 0#16).toNat ∧
    (baseState 0x100#32).mem.size ≤ ((baseState 0x100#32).effectiveAddress 3 0xFFFF#16).toNat + 1 ∧
    (baseState 0x100#32).mem.size ≤ ((baseState 0x100#32).effectiveAddress 3 0xFFFD#16).toNat + 3 ∧
    (baseState 0x100#32).mem.size ≤ ((baseState 0x100#32).effectiveAddress 0 0xFFFF#16).toNat + 3 := by decide

/-- The store goes to pc + 4, the last four bytes of MEM. -/
theorem witness_StoredWordIsFetchedByTheNextStep :
    ((baseState 0x100#32).setPc 0xF8#32).effectiveAddress 3 0xFFFC#16 = ((baseState 0x100#32).setPc 0xF8#32).pc + 4#32 ∧
    (((baseState 0x100#32).setPc 0xF8#32).pc + 4#32).toNat + 3 < ((baseState 0x100#32).setPc 0xF8#32).mem.size := by decide

/-- Each branch with its condition met, at the edge of the signed conditions. -/
theorem witness_taken_branches : jrState.readReg 5 = jrState.readReg 6 ∧ jrState.readReg 31 ≠ jrState.readReg 0 ∧
    (jrState.readReg 0).toInt ≤ 0 ∧ 0 < (jrState.readReg 31).toInt := by decide

/-- Both sides of the sltu parameter. -/
theorem witness_SltuComparesUnsignedAtItsFunct : opField 0x00221829#32 = 0#6 ∧ functField 0x00221829#32 = 0x29#6 ∧
    opField 0x0022182B#32 = 0#6 ∧ functField 0x0022182B#32 = 0x2B#6 := by decide

/-- A divisor that is not zero, the corner -2^31 / -1, and another pair. -/
theorem witness_divide : (vec 0#32 0#32 [(1, 0x80000000#32), (2, 0xFFFFFFFF#32)]).readReg 2 ≠ 0#32 ∧
    (vec 0#32 0#32 [(1, 0x80000000#32), (2, 0xFFFFFFFF#32)]).readReg 1 = 0x80000000#32 ∧
    (vec 0#32 0#32 [(1, 0x80000000#32), (2, 0xFFFFFFFF#32)]).readReg 2 = 0xFFFFFFFF#32 ∧
    (vec 0#32 0#32 [(1, 7#32), (2, 0xFFFFFFFE#32)]).readReg 2 ≠ 0#32 := by decide

theorem witness_DivideByZeroCompletesWithTwoDraws : (vec 0#32 0#32 [(1, 5#32)]).readReg 2 = 0#32 := by decide

theorem witness_DefaultSyscallAdvances : (vec 0x40#32 0x0000000C#32 []).handler = Config.handler ∧
    (vec 0x40#32 0x0000000C#32 []).outcomes = [.continueWith []] := by decide

theorem witness_ContinuingSyscall : goOnState.chosenOutcome = some (.continueWith [.pc 0x100#32, .byte 0xFF#32 1#8]) ∧
    (goOnState.applyEdits [.pc 0x100#32, .byte 0xFF#32 1#8]).pc = 0x100#32 ∧
    (goOnState.applyEdits [.pc 0x100#32, .byte 0xFF#32 1#8]).mem.readByte 0xFF = 1#8 := by decide

theorem witness_TerminatingSyscall : endState.chosenOutcome = some (.terminateWith [.reg 2 7#32]) ∧
    (endState.applyEdits [.reg 2 7#32]).readReg 2 = 7#32 := by decide

theorem witness_OnlyAnEmptyOutcomeSetSticks : stuckState.status = .running ∧ stuckState.fetch = some 0x0000000C#32 ∧
    decode stuckState.sltuFunct 0x0000000C#32 = .ok (.syscall 0#20) ∧ stuckState.outcomes = [] ∧
    step stuckState = .fault .noHandlerOutcome := ⟨by decide, by decide, by decide, by decide, rfl⟩

/-- A state with an injected handler, of which nothing is known, and one whose handler leaves a choice, which is counted. -/
theorem witness_SyscallChoosesAmongTheHandlersOutcomes :
    ((vec 0x40#32 0x0000000C#32 []).setHandler .injected).handler = .injected ∧
    (let s := (vec 0x40#32 0x0000000C#32 []).setHandler (.constant [.continueWith [], .terminateWith []])
     .terminateWith [] ∈ s.outcomes ∧ s.countChoice.choices = 1 ∧
     chooseFrom s.outcomes 1 = some (.terminateWith []) ∧ chooseFrom s.outcomes 2 = some (.continueWith [])) ∧
    exec (.syscall 0#20) goOnState = .next (after goOnState) := ⟨by decide, by decide, rfl⟩

/-- Two states that differ in every part that a handler may change. -/
theorem witness_HandlerReachesEveryAllowedState :
    let s := vec 0#32 0#32 []
    let t := ((((s.writeReg 31 1#32).setHi 2#32).setLo 3#32).setPc 4#32).setMem (s.mem.writeByte 0xFF 5#8)
    s.mem.wf = true ∧ t.mem.wf = true ∧ t.mem.size = s.mem.size ∧ t.regs[0] = s.regs[0] ∧ t.status = s.status ∧
    t.sltuFunct = s.sltuFunct ∧ t.handler = s.handler ∧ t.draws = s.draws ∧ t.choices = s.choices := by decide

/-- Edits out of the handler's reach and in it, on a canonical memory; the first byte at MEM_SIZE. -/
theorem witness_HandlerCannotReachBeyondItsPowers : goOnState.mem.wf = true ∧ goOnState.mem.size ≤ 0x100 ∧
    goOnState.applyEdits [.byte 0x100#32 1#8, .reg 0 1#32] = goOnState := by decide

theorem witness_invariant : State.reset.Inv ∧ jrState.Inv ∧ faultState.Inv ∧ endState.Inv ∧ goOnState.Inv :=
  ⟨⟨by decide, by decide, by decide⟩, ⟨by decide, by decide, by decide⟩, ⟨by decide, by decide, by decide⟩,
    ⟨by decide, by decide, by decide⟩, ⟨by decide, by decide, by decide⟩⟩

/-- `load` accepts an image in a state that meets the invariant. -/
theorem witness_ConstructionAndLoad : State.reset.Inv ∧
    ∃ t, State.reset.load [0x24#8, 0x08#8, 0x00#8, 0x05#8] = .ok t ∧ t.mem.size = 4 :=
  ⟨⟨by decide, by decide, by decide⟩, ⟨_, rfl, by decide⟩⟩

/-- From states that meet the invariant: a step that completes, one that faults, one that terminates. -/
theorem witness_EveryStepKeepsTheInvariant : step jrState = .next (after jrState) ∧
    step faultState = .next (after faultState) ∧ step endState = .next (after endState) ∧
    step goOnState = .next (after goOnState) := ⟨rfl, rfl, rfl, rfl⟩

/-- S1: the machine launched with its image of four bytes runs two steps and halts. -/
theorem witness_EveryRunKeepsInvariantSizeAndParameters :
    ∃ s t, State.launch 0#32 [0x24#8, 0x08#8, 0x00#8, 0x05#8] = .ok s ∧ Reaches s t ∧
      t.status = .halted ⟨.memoryFault, 4#32, none, some 4#32⟩ :=
  ⟨_, after (after ((State.new 0#32).setMem (Memory.ofImage [0x24#8, 0x08#8, 0x00#8, 0x05#8]))), rfl, ⟨2, rfl⟩, by decide⟩

/-- One next state of each kind that the statements about `exec` speak of: a plain instruction, a load that completes and
one that faults, a store, a transfer, a `syscall` that continues and one that terminates. -/
theorem witness_exec_answers_next : (∃ t, exec (.addu 3 2 2) (baseState 0#32) = .next t ∧ t.status = .running) ∧
    (∃ t, exec (.lw 2 3 0#16) (baseState 0#32) = .next t ∧ t.status = .running) ∧
    (∃ t, exec (.lw 2 3 0#16) (baseState 0xFD#32) = .next t ∧
      t.status = .halted ⟨.memoryFault, 0#32, some 0x8C620000#32, some 0xFD#32⟩) ∧
    (∃ t, exec (.sw 2 3 0#16) (baseState 0#32) = .next t ∧ t.status = .running) ∧
    (∃ t, exec (.jalr 0 2) (baseState 0#32) = .next t ∧ t.status = .running) ∧
    (∃ t, exec (.syscall 0#20) goOnState = .next t ∧ t.status = .running) ∧
    ∃ t, exec (.syscall 0#20) endState = .next t ∧ t.status = .halted ⟨.terminated, 0x40#32, some 0x0000000C#32, none⟩ :=
  ⟨⟨_, rfl, by decide⟩, ⟨_, rfl, by decide⟩, ⟨_, rfl, by decide⟩, ⟨_, rfl, by decide⟩, ⟨_, rfl, by decide⟩,
    ⟨_, rfl, by decide⟩, ⟨_, rfl, by decide⟩⟩

/-- The syntactic hypotheses of the statements about `exec`, for the instructions of the theorem above and `mtlo`. -/
theorem witness_syntax : (Instr.addu 3 2 2).isControlTransfer = false ∧ (Instr.addu 3 2 2).isSyscall = false ∧
    (Instr.addu 3 2 2).destination ≠ some 2 ∧ (Instr.addu 3 2 2).writesHi = false ∧ (Instr.addu 3 2 2).writesLo = false ∧
    (Instr.addu 3 2 2).isStore = false ∧ (Instr.addu 3 2 2).readsHiLo = false ∧ (Instr.mtlo 2).writesHi = false ∧
    (Instr.sw 2 3 0#16).isControlTransfer = false ∧ (Instr.sw 2 3 0#16).isStore = true ∧ (Instr.lw 2 3 0#16).isSyscall = false := by decide

/-- Halts that are not Terminated: DecodeError, a load's MemoryFault, a fetch's MemoryFault; and one that is. -/
theorem witness_halts :
    (step (vec 0x40#32 0x302200FF#32 []) = .next (after (vec 0x40#32 0x302200FF#32 [])) ∧
      (after (vec 0x40#32 0x302200FF#32 [])).status = .halted ⟨.decodeError, 0x40#32, some 0x302200FF#32, none⟩) ∧
    (step faultState = .next (after faultState) ∧
      (after faultState).status = .halted ⟨.memoryFault, 0#32, some 0x8C0200FD#32, some 0xFD#32⟩) ∧
    (State.reset.status = .running ∧ State.reset.fetch = none ∧ step State.reset = .next (after State.reset) ∧
      (after State.reset).status = .halted ⟨.memoryFault, 0#32, none, some 0#32⟩) ∧
    (step endState = .next (after endState) ∧
      (after endState).status = .halted ⟨.terminated, 0x40#32, some 0x0000000C#32, none⟩) :=
  ⟨⟨rfl, by decide⟩, ⟨rfl, by decide⟩, ⟨by decide, by decide, rfl, by decide⟩, ⟨rfl, by decide⟩⟩

end Sys2Proof.Tests
end

section
/-! SUPPORT. Proofs of the statements on the scope and the embedder's interface (spec/00_scope.md §4, §5): the run until a
halt, the three results of a step, the handler's outcomes. -/

namespace Sys2Proof.Machine

/-! ### The run until a halt (R13, R407) -/

/-- The embedder's run of a halted machine (R13). -/
theorem run_of_halted {s : State} {r : HaltRecord} (h : s.status = .halted r) (n : Nat) : run n s = .next s := by
  cases n with
  | zero => rfl
  | succ n => simp only [run, h]

/-- The host's run of a halted machine: each step answers the same state (R407; log 2). -/
theorem coreRun_of_halted {s : State} {r : HaltRecord} (h : s.status = .halted r) (n : Nat) :
    Host.Core.run Sys2Proof.core n s = .next s := by
  have hstep : Sys2Proof.core.step s = .next s := step_of_halted h
  induction n with
  | zero => rfl
  | succ n ih => simp only [Host.Core.run, hstep, ih]

/-- The host's run goes on where the embedder's stops, at the first halt, and gives the same (R13, R407). -/
theorem coreRun_eq_run (n : Nat) (s : State) : Host.Core.run Sys2Proof.core n s = run n s := by
  induction n generalizing s with
  | zero => rfl
  | succ n ih =>
    cases hs : s.status with
    | halted r => exact (coreRun_of_halted hs _).trans (run_of_halted hs _).symm
    | running =>
      have hcore : Sys2Proof.core.step s = step s := rfl
      simp only [Host.Core.run, run, hs, hcore]
      cases step s with
      | next t => exact ih t
      | fault | refused => rfl

/-! ### The embedder's view of a state (R11) -/

theorem State.result_eq_next_iff (s : State) : s.result = .next s ↔ s.status = .running := by
  unfold State.result
  split
  · simp [*]
  · split <;> simp [*]

theorem State.result_eq_terminated_iff (s : State) :
    s.result = .terminated ↔ ∃ r, s.status = .halted r ∧ r.kind = .terminated := by
  unfold State.result
  split
  · simp [*]
  · split <;> simp [*]

theorem State.result_eq_halt_iff (s : State) (r : HaltRecord) :
    s.result = .halt r ↔ s.status = .halted r ∧ r.kind ≠ .terminated := by
  unfold State.result
  split
  · simp [*]
  · split
    · simp only [*, reduceCtorEq, Status.halted.injEq, false_iff]
      rintro ⟨rfl, hk⟩
      exact hk ‹_›
    · simp only [*, Status.halted.injEq, StepResult.halt.injEq]
      exact ⟨fun e => ⟨e, e ▸ ‹_›⟩, And.left⟩

/-! ### What a step can halt with -/

theorem isSyscall_iff (i : Instr) : i.isSyscall = true ↔ ∃ code, i = .syscall code := by
  cases i <;> simp [Instr.isSyscall]

/-- A `syscall` halts a running machine only by an outcome Terminate, with its own pc and word in the record (R340; log 9). -/
theorem State.finishSyscall_halted {s : State} {w : Word} {o : HandlerOutcome} {r : HaltRecord}
    (hs : s.status = .running) (h : (s.finishSyscall w o).status = .halted r) :
    r = ⟨.terminated, s.pc, some w, none⟩ := by
  cases o with
  | continueWith es =>
    obtain ⟨-, -, hkeep, -⟩ := s.applyEdits_keeps es
    rw [State.finishSyscall, State.advance_status, hkeep, hs] at h
    cases h
  | terminateWith es => exact (Status.halted.inj h).symm

/-- An instruction halts a running machine only as a load or a store, by a MemoryFault, or as `syscall`, by termination. -/
theorem exec_halted_kind {i : Instr} {s t : State} {r : HaltRecord} (hs : s.status = .running)
    (h : exec i s = .next t) (ht : t.status = .halted r) :
    (r.kind = .memoryFault ∧ (i.isLoad = true ∨ i.isStore = true)) ∨ (r.kind = .terminated ∧ i.isSyscall = true) := by
  by_cases hl : i.isLoad = true
  · obtain ⟨_, _, -, rfl⟩ | ⟨a, rfl⟩ := exec_load h hl
    · simp [hs] at ht
    · obtain rfl := Status.halted.inj ht
      exact .inl ⟨rfl, .inl hl⟩
  by_cases hst : i.isStore = true
  · obtain ⟨_, _, _, _, -, rfl⟩ | ⟨a, rfl⟩ := exec_store h hst
    · simp [hs] at ht
    · obtain rfl := Status.halted.inj ht
      exact .inl ⟨rfl, .inr hst⟩
  by_cases hsys : i.isSyscall = true
  · obtain ⟨code, rfl⟩ := (isSyscall_iff i).1 hsys
    obtain ⟨o, -, -, rfl⟩ := exec_syscall h
    obtain rfl := State.finishSyscall_halted (s := s.countChoice) hs ht
    exact .inr ⟨rfl, hsys⟩
  · obtain ⟨-, hkeep, -⟩ := exec_plain h (by simpa using hst) (by simpa using hsys) (by simpa using hl)
    rw [hkeep, hs] at ht
    cases ht

/-- A step halts a running machine with a DecodeError or a MemoryFault, or terminates it at a `syscall`. -/
theorem step_halted_kind {s t : State} {r : HaltRecord} (hs : s.status = .running) (h : step s = .next t)
    (ht : t.status = .halted r) :
    (r.kind = .decodeError ∨ r.kind = .memoryFault) ∨
    (r.kind = .terminated ∧ ∃ w code, s.fetch = some w ∧ decode s.sltuFunct w = .ok (.syscall code)) := by
  obtain ⟨r', hh, -⟩ | ⟨-, -, rfl⟩ | ⟨w, e, -, -, -, rfl⟩ | ⟨w, i, -, hf, hd, he⟩ := step_cases h
  · rw [hs] at hh
    cases hh
  · obtain rfl := Status.halted.inj ht
    exact .inl (.inr rfl)
  · obtain rfl := Status.halted.inj ht
    exact .inl (.inl rfl)
  · obtain ⟨hk, -⟩ | ⟨hk, hsys⟩ := exec_halted_kind hs he ht
    · exact .inl (.inr hk)
    · obtain ⟨code, rfl⟩ := (isSyscall_iff i).1 hsys
      exact .inr ⟨hk, w, code, hf, hd⟩

/-! ### The handler's outcomes (R12, R340) -/

/-- An injected handler's outcomes are those of the external relation at the architectural state (R12; log 6). -/
theorem State.outcomes_of_injected {s : State} (h : s.handler = .injected) : s.outcomes = Config.syscall s.arch := by
  simp only [State.outcomes, h]

/-! ### The statements -/

/-- Settles O7, by induction on the number of steps: a halted machine stays as it is, so going on is invisible. -/
theorem runningUntilHaltedIsTheHostRun : Obligations.RunningUntilHaltedIsTheHostRun := coreRun_eq_run

/-- Settles O8, from what a step of a running machine can halt with. -/
theorem stepResultTellsTheEmbedderTheThreeOutcomes : Obligations.StepResultTellsTheEmbedderTheThreeOutcomes := by
  intro s t hs h
  refine ⟨t.result_eq_next_iff, fun hres => ?_, fun r hres => ?_⟩
  · obtain ⟨r, ht, hk⟩ := t.result_eq_terminated_iff.1 hres
    obtain (hk' | hk') | ⟨-, hsys⟩ := step_halted_kind hs h ht
    · cases hk.symm.trans hk'
    · cases hk.symm.trans hk'
    · exact hsys
  · obtain ⟨ht, hk⟩ := (t.result_eq_halt_iff r).1 hres
    exact ⟨ht, (step_halted_kind hs h ht).resolve_right fun hterm => hk hterm.1⟩

/-- Settles O60, from what a `syscall` that completes ends in and what a choice can take. -/
theorem syscallChoosesAmongTheHandlersOutcomes : Obligations.SyscallChoosesAmongTheHandlersOutcomes := by
  refine ⟨fun _ => State.outcomes_of_injected, fun s k => ⟨s.arch_regs k, rfl, rfl, rfl, rfl⟩, fun code s t h => ?_,
    State.chosenOutcome_eq_none_iff, fun os o => (chooseFrom_eq_some_iff os o).2⟩
  obtain ⟨-, -, -, hhandler, -⟩ := exec_syscall_keeps h
  obtain ⟨o, hchosen, hmem, ht⟩ := exec_syscall h
  exact ⟨hhandler, o, hmem, hchosen, ht⟩

end Sys2Proof.Machine
end

section
/-! SUPPORT. Proofs of the statements on the state (spec/10_state.md): what an instruction can do to it, the invariant along
steps and runs, the writes of R44 and R51, the reads of HI and LO. -/

namespace Sys2Proof.Machine

/-! ### The canonical form and a fetch in bounds (R54, R87; log 5) -/

/-- A canonical memory is fixed by its bytes below MEM_SIZE: the others read as unlisted (R54). -/
theorem Memory.ext_of_wf_below {m n : Memory} (hm : m.wf = true) (hn : n.wf = true) (hs : m.size = n.size)
    (h : ∀ a, a < m.size → m.readByte a = n.readByte a) : m = n := by
  refine Memory.ext_of_wf hm hn hs fun a => ?_
  rcases Nat.lt_or_ge a m.size with ha | ha
  · exact h a ha
  · rw [Memory.readByte_of_size_le hm ha, Memory.readByte_of_size_le hn (hs ▸ ha)]

/-- A fetch in bounds gives the four bytes at pc, the lowest address most significant (R81, R87). -/
theorem State.fetch_of_inBounds {s : State} (h : s.pc.toNat + 3 < s.mem.size) :
    s.fetch = some (s.mem.readByte s.pc.toNat ++ s.mem.readByte (s.pc.toNat + 1) ++ s.mem.readByte (s.pc.toNat + 2) ++
      s.mem.readByte (s.pc.toNat + 3)) :=
  Memory.read_of_inBounds (w := .word) h

/-! ### All that an instruction can do -/

/-- The ways in which an instruction `i` ends from `s`, with what each may write (R42, R44, R51, R88, R340, R402). -/
inductive Effect (i : Instr) (s : State) : State → Prop where
  /-- The destination of R44 and the pc are written. -/
  | writesReg {r : RegIdx} (v pc : Word) (hd : i.destination = some r) : Effect i s ((s.writeReg r v).setPc pc)
  /-- HI, LO and the pc are written, HI and LO with a new value only where R51 says so, and draws may be taken. -/
  | writesHiLo (hi lo pc : Word) (n : Nat) (hhi : i.writesHi = false → hi = s.hi) (hlo : i.writesLo = false → lo = s.lo) :
      Effect i s ((((s.setHi hi).setLo lo).setDraws n).setPc pc)
  /-- A store completes. -/
  | writesMem {a v : Word} {width : Width} {m : Memory} (hs : i.isStore = true) (hm : s.mem.write a width v = some m) :
      Effect i s (s.setMem m).advance
  /-- A load or a store is out of bounds. -/
  | faults (a : Word) (hi : i.isLoad = true ∨ i.isStore = true) :
      Effect i s (s.raiseMemoryFault (some (encode s.sltuFunct i)) a)
  /-- A `syscall` ends in the chosen outcome of its handler. -/
  | asksHandler {o : HandlerOutcome} (hsys : i.isSyscall = true) (ho : s.chosenOutcome = some o) :
      Effect i s (s.countChoice.finishSyscall (encode s.sltuFunct i) o)

/-- The end of the multiplications and of a division whose divisor is not zero. -/
theorem Effect.finishHiLo {i : Instr} {s : State} (hi lo : Word) (hhi : i.writesHi = true) (hlo : i.writesLo = true) :
    Effect i s (s.finishHiLo hi lo) :=
  .writesHiLo hi lo _ s.draws (fun h => by simp [hhi] at h) (fun h => by simp [hlo] at h)

/-- An instruction that has a next state ends in one of these ways. -/
theorem exec_effect {i : Instr} {s t : State} (h : exec i s = .next t) : Effect i s t := by
  cases i with
  | lb | lbu | lh | lhu | lw =>
    obtain ⟨r, v, hd, rfl⟩ | ⟨a, rfl⟩ := exec_load h rfl
    · exact .writesReg v _ hd
    · exact .faults a (.inl rfl)
  | sb | sh | sw =>
    obtain ⟨a, width, v, m, hm, rfl⟩ | ⟨a, rfl⟩ := exec_store h rfl
    · exact .writesMem rfl hm
    · exact .faults a (.inr rfl)
  | syscall code =>
    obtain ⟨o, ho, -, rfl⟩ := exec_syscall h
    exact .asksHandler rfl ho
  | div rs rt | divu rs rt =>
    obtain rfl := Host.Outcome.next.inj h
    split
    · exact .writesHiLo _ _ _ (s.draws + 2) nofun nofun
    · exact .finishHiLo _ _ rfl rfl
  | mult | multu =>
    obtain rfl := Host.Outcome.next.inj h
    exact .finishHiLo _ _ rfl rfl
  | mthi rs =>
    obtain rfl := Host.Outcome.next.inj h
    exact .writesHiLo (s.readReg rs) s.lo _ s.draws nofun fun _ => rfl
  | mtlo rs =>
    obtain rfl := Host.Outcome.next.inj h
    exact .writesHiLo s.hi (s.readReg rs) _ s.draws (fun _ => rfl) nofun
  | j | jr | beq | bne | blez | bgtz =>
    obtain rfl := Host.Outcome.next.inj h
    exact .writesHiLo s.hi s.lo _ s.draws (fun _ => rfl) fun _ => rfl
  | _ =>
    obtain rfl := Host.Outcome.next.inj h
    exact .writesReg _ _ rfl

/-! ### What nothing changes: MEM_SIZE, the stored slot of R[0], the parameters -/

/-- What no step changes (R42, R54; logs 6, 10, 14). -/
structure SameFixed (s t : State) : Prop where
  size : t.mem.size = s.mem.size
  zero_slot : t.regs[0] = s.regs[0]
  sltuFunct : t.sltuFunct = s.sltuFunct
  handler : t.handler = s.handler

theorem SameFixed.refl (s : State) : SameFixed s s := ⟨rfl, rfl, rfl, rfl⟩

theorem SameFixed.trans {s t u : State} (h : SameFixed s t) (k : SameFixed t u) : SameFixed s u :=
  ⟨k.size.trans h.size, k.zero_slot.trans h.zero_slot, k.sltuFunct.trans h.sltuFunct, k.handler.trans h.handler⟩

theorem exec_sameFixed {i : Instr} {s t : State} (h : exec i s = .next t) : SameFixed s t := by
  cases exec_effect h with
  | writesReg v pc => exact ⟨by simp, by simp, by simp, by simp⟩
  | writesHiLo | faults => exact ⟨rfl, rfl, rfl, rfl⟩
  | writesMem _ hm =>
    obtain ⟨-, rfl⟩ := (Memory.write_eq_some_iff ..).1 hm
    exact ⟨by simp, rfl, rfl, rfl⟩
  | asksHandler hsys =>
    obtain ⟨code, rfl⟩ := (isSyscall_iff i).1 hsys
    obtain ⟨hsize, hzero, hsltu, hhandler, -⟩ := exec_syscall_keeps h
    exact ⟨hsize, hzero, hsltu, hhandler⟩

theorem step_sameFixed {s t : State} (h : step s = .next t) : SameFixed s t := by
  obtain ⟨r, -, rfl⟩ | ⟨-, -, rfl⟩ | ⟨w, e, -, -, -, rfl⟩ | ⟨w, i, -, -, -, he⟩ := step_cases h
  · exact .refl t
  · exact ⟨rfl, rfl, rfl, rfl⟩
  · exact ⟨rfl, rfl, rfl, rfl⟩
  · exact exec_sameFixed he

/-! ### The invariant along a step -/

theorem State.statusWf_of_running {s : State} (h : s.status = .running) : s.statusWf = true := by
  simp only [State.statusWf, h]

/-- The handler's edits and the count of choices leave the status as it was, and a termination has its own record (R400). -/
theorem State.finishSyscall_statusWf {s : State} (hs : s.status = .running) (w : Word) (o : HandlerOutcome) :
    (s.finishSyscall w o).statusWf = true := by
  cases o with
  | continueWith es =>
    obtain ⟨-, -, hkeep, -⟩ := s.applyEdits_keeps es
    exact State.statusWf_of_running (hkeep.trans hs)
  | terminateWith es => rfl

theorem State.finishSyscall_mem_wf {s : State} (hm : s.mem.wf = true) (w : Word) (o : HandlerOutcome) :
    (s.finishSyscall w o).mem.wf = true := by
  cases o with
  | continueWith es | terminateWith es => exact s.applyEdits_wf es hm

/-- No instruction brings MEM out of its canonical form (R54). -/
theorem exec_mem_wf {i : Instr} {s t : State} (hm : s.mem.wf = true) (h : exec i s = .next t) : t.mem.wf = true := by
  cases exec_effect h with
  | writesReg v pc => simpa using hm
  | writesHiLo | faults => exact hm
  | writesMem _ hw => exact Memory.write_wf hm hw
  | asksHandler => exact State.finishSyscall_mem_wf (s := s.countChoice) hm _ _

/-- An instruction leaves a running machine running or halts it with the record that R400 gives. -/
theorem exec_statusWf {i : Instr} {s t : State} (hr : s.status = .running) (h : exec i s = .next t) :
    t.statusWf = true := by
  cases exec_effect h with
  | writesReg v pc => exact State.statusWf_of_running (by simpa using hr)
  | writesHiLo | writesMem => exact State.statusWf_of_running hr
  | faults => simp [State.statusWf, HaltRecord.wellFormed]
  | asksHandler => exact State.finishSyscall_statusWf (s := s.countChoice) hr _ _

theorem step_mem_wf {s t : State} (hm : s.mem.wf = true) (h : step s = .next t) : t.mem.wf = true := by
  obtain ⟨r, -, rfl⟩ | ⟨-, -, rfl⟩ | ⟨w, e, -, -, -, rfl⟩ | ⟨w, i, -, -, -, he⟩ := step_cases h
  · exact hm
  · exact hm
  · exact hm
  · exact exec_mem_wf hm he

theorem step_statusWf {s t : State} (hs : s.statusWf = true) (h : step s = .next t) : t.statusWf = true := by
  obtain ⟨r, -, rfl⟩ | ⟨-, -, rfl⟩ | ⟨w, e, -, -, -, rfl⟩ | ⟨w, i, hr, -, -, he⟩ := step_cases h
  · exact hs
  · simp [State.statusWf, HaltRecord.wellFormed]
  · simp [State.statusWf, HaltRecord.wellFormed]
  · exact exec_statusWf hr he

/-- The invariant is kept part by part. -/
theorem step_inv {s t : State} (hs : s.Inv) (h : step s = .next t) : t.Inv :=
  ⟨(step_sameFixed h).zero_slot.trans hs.zero_slot, step_mem_wf hs.mem_wf h, step_statusWf hs.status_wf h⟩

/-- No record of a machine that meets the invariant has the kind RegisterIndexFault (R403). -/
theorem State.Inv.kind_ne_registerIndexFault {s : State} {r : HaltRecord} (h : s.Inv) (hs : s.status = .halted r) :
    r.kind ≠ .registerIndexFault := by
  intro hk
  have hwf := h.status_wf
  simp [State.statusWf, hs, HaltRecord.wellFormed, hk] at hwf

/-! ### The invariant at construction and after a load (R450, R451) -/

theorem State.new_inv (e : Word) : (State.new e).Inv := ⟨rfl, rfl, rfl⟩

/-- All that a load that is accepted does (R451; log 17). -/
theorem State.load_eq_ok_iff (s t : State) (image : List Byte) :
    s.load image = .ok t ↔ image.length ≤ maxImageLength ∧ t = s.setMem (Memory.ofImage image) := by
  by_cases h : image.length ≤ maxImageLength <;> simp [State.load, imageWellFormed, h, eq_comm]

theorem State.load_inv {s t : State} {image : List Byte} (hs : s.Inv) (h : s.load image = .ok t) : t.Inv := by
  obtain ⟨hlen, rfl⟩ := (State.load_eq_ok_iff ..).1 h
  exact ⟨hs.zero_slot, Memory.ofImage_wf hlen, hs.status_wf⟩

/-! ### Runs -/

/-- What every step keeps holds at the end of every run from a state where it holds. -/
theorem Reaches.induction {P : State → Prop} (hstep : ∀ u v, P u → step u = .next v → P v) {s t : State}
    (h : Reaches s t) (hs : P s) : P t := by
  obtain ⟨n, h⟩ := h
  induction n generalizing s with
  | zero => exact Host.Outcome.next.inj h ▸ hs
  | succ n ih =>
    unfold run at h
    split at h
    · exact Host.Outcome.next.inj h ▸ hs
    · split at h
      · exact ih (hstep _ _ hs ‹_›) h
      · cases h
      · cases h

theorem Reaches.sameFixed {s t : State} (h : Reaches s t) : SameFixed s t :=
  h.induction (fun _ _ hu hv => hu.trans (step_sameFixed hv)) (.refl s)

theorem Reaches.inv {s t : State} (h : Reaches s t) (hs : s.Inv) : t.Inv := h.induction (fun _ _ => step_inv) hs

/-! ### Writes (R44, R51, R88) -/

/-- A write leaves the other registers as they read (R42). -/
theorem State.readReg_writeReg_of_ne (s : State) {r k : RegIdx} (h : k ≠ r) (v : Word) :
    (s.writeReg r v).readReg k = s.readReg k := by
  by_cases hk : k = 0 <;> simp [hk, h]

/-- An instruction but `syscall` writes no register, HI, LO or MEM but those of the tables. -/
theorem exec_writes {i : Instr} {s t : State} (h : exec i s = .next t) (hsys : i.isSyscall = false) :
    (∀ k, i.destination ≠ some k → t.readReg k = s.readReg k) ∧ (i.writesHi = false → t.hi = s.hi) ∧
    (i.writesLo = false → t.lo = s.lo) ∧ (i.isStore = false → t.mem = s.mem) := by
  cases exec_effect h with
  | @writesReg r v pc hd =>
    refine ⟨fun k hk => ?_, fun _ => by simp, fun _ => by simp, fun _ => by simp⟩
    have hne : k ≠ r := fun e => hk (e ▸ hd)
    exact s.readReg_writeReg_of_ne hne v
  | writesHiLo hi lo pc n hhi hlo => exact ⟨fun _ _ => rfl, hhi, hlo, fun _ => rfl⟩
  | writesMem hs => exact ⟨fun _ _ => rfl, fun _ => rfl, fun _ => rfl, fun hn => by simp [hs] at hn⟩
  | faults => exact ⟨fun _ _ => rfl, fun _ => rfl, fun _ => rfl, fun _ => rfl⟩
  | asksHandler hs => simp [hsys] at hs

/-- A store changes no byte outside those of its access (R83, R241). -/
theorem State.storeFrom_sameMemOutside (s : State) (i : Instr) (width : Width) (rt rs : RegIdx) (imm : Imm16) :
    SameMemOutside s (s.storeFrom i width rt rs imm) (s.effectiveAddress rs imm).toNat width.bytes := by
  obtain ⟨m, hm, e⟩ | e := s.storeFrom_cases i width rt rs imm
  · obtain ⟨-, rfl⟩ := (Memory.write_eq_some_iff ..).1 hm
    rw [e]
    exact ⟨Memory.store_size .., fun _ hb => Memory.readByte_store_outside _ _ _ _ hb⟩
  · rw [e]
    exact ⟨rfl, fun _ _ => rfl⟩

/-! ### Reads of HI and LO (R51) -/

/-- HI and LO have no part in a register write. -/
theorem State.writeReg_setHi_setLo (s : State) (h l : Word) (r : RegIdx) (v : Word) :
    ((s.setHi h).setLo l).writeReg r v = ((s.writeReg r v).setHi h).setLo l := by
  unfold State.writeReg
  split <;> rfl

/-- HI and LO have no part in a load. -/
theorem State.loadTo_setHi_setLo (s : State) (h l : Word) (i : Instr) (width : Width) (extend : Word → Word)
    (rt rs : RegIdx) (imm : Imm16) :
    ((s.setHi h).setLo l).loadTo i width extend rt rs imm = ((s.loadTo i width extend rt rs imm).setHi h).setLo l := by
  rcases Nat.lt_or_ge ((s.effectiveAddress rs imm).toNat + width.bytes - 1) s.mem.size with hb | hb
  · rw [s.loadTo_inBounds i width extend rt rs imm hb, ((s.setHi h).setLo l).loadTo_inBounds i width extend rt rs imm hb,
      State.writeReg_setHi_setLo]
    rfl
  · rw [s.loadTo_outOfBounds i width extend rt rs imm hb, ((s.setHi h).setLo l).loadTo_outOfBounds i width extend rt rs imm hb]
    rfl

/-- HI and LO have no part in a store. -/
theorem State.storeFrom_setHi_setLo (s : State) (h l : Word) (i : Instr) (width : Width) (rt rs : RegIdx) (imm : Imm16) :
    ((s.setHi h).setLo l).storeFrom i width rt rs imm = ((s.storeFrom i width rt rs imm).setHi h).setLo l := by
  rcases Nat.lt_or_ge ((s.effectiveAddress rs imm).toNat + width.bytes - 1) s.mem.size with hb | hb
  · rw [s.storeFrom_inBounds i width rt rs imm hb, ((s.setHi h).setLo l).storeFrom_inBounds i width rt rs imm hb]
    rfl
  · rw [s.storeFrom_outOfBounds i width rt rs imm hb, ((s.setHi h).setLo l).storeFrom_outOfBounds i width rt rs imm hb]
    rfl

/-- With another HI and LO before it, an instruction that does not read them ends in the same state but for HI and LO. -/
theorem exec_setHi_setLo {i : Instr} {s t : State} (h l : Word) (hread : i.readsHiLo = false) (hsys : i.isSyscall = false)
    (he : exec i s = .next t) : ∃ h' l', exec i ((s.setHi h).setLo l) = .next ((t.setHi h').setLo l') := by
  cases i with
  | mfhi | mflo => cases hread
  | syscall => cases hsys
  | lb | lbu | lh | lhu | lw =>
    obtain rfl := Host.Outcome.next.inj he
    exact ⟨h, l, congrArg Host.Outcome.next (s.loadTo_setHi_setLo ..)⟩
  | sb | sh | sw =>
    obtain rfl := Host.Outcome.next.inj he
    exact ⟨h, l, congrArg Host.Outcome.next (s.storeFrom_setHi_setLo ..)⟩
  | div rs rt | divu rs rt =>
    obtain rfl := Host.Outcome.next.inj he
    by_cases hz : s.readReg rt = 0#32
    all_goals
      simp only [exec, execDiv, execDivu, State.setLo_readReg, State.setHi_readReg, hz, if_true, if_false]
      exact ⟨_, _, rfl⟩
  | mult | multu =>
    obtain rfl := Host.Outcome.next.inj he
    exact ⟨_, _, rfl⟩
  | mthi rs =>
    obtain rfl := Host.Outcome.next.inj he
    exact ⟨s.readReg rs, l, rfl⟩
  | mtlo rs =>
    obtain rfl := Host.Outcome.next.inj he
    exact ⟨h, s.readReg rs, rfl⟩
  | j | jr | beq | bne | blez | bgtz =>
    obtain rfl := Host.Outcome.next.inj he
    exact ⟨h, l, rfl⟩
  | _ =>
    obtain rfl := Host.Outcome.next.inj he
    exact ⟨h, l, congrArg (fun u => Host.Outcome.next (State.setPc u _)) (s.writeReg_setHi_setLo h l _ _)⟩

/-! ### The statements -/

/-- Settles O51, part by part of the invariant over what a step can do. -/
theorem everyStepKeepsTheInvariant : Obligations.EveryStepKeepsTheInvariant := fun _ _ => step_inv

/-- Settles O52, by induction on the run; a launched machine meets the invariant, which excludes the kind. -/
theorem everyRunKeepsInvariantSizeAndParameters : Obligations.EveryRunKeepsInvariantSizeAndParameters := by
  intro s t h
  have hfixed := h.sameFixed
  refine ⟨hfixed.size, hfixed.sltuFunct, hfixed.handler, h.inv, fun e image hlaunch r hr => ?_⟩
  have hs : s.Inv := State.load_inv (State.new_inv e) hlaunch
  exact (h.inv hs).kind_ne_registerIndexFault hr

/-- Settles O13, from what a write keeps and from the readings that fix a canonical memory. -/
theorem everyMemoryWriteKeepsTheCanonicalForm : Obligations.EveryMemoryWriteKeepsTheCanonicalForm :=
  ⟨fun _ _ _ _ _ => Memory.write_wf, fun _ _ => Memory.ext_of_wf_below⟩

/-- Settles O53: the write path discards, and no instruction changes the stored slot. -/
theorem zeroRegisterStaysZero : Obligations.ZeroRegisterStaysZero := fun s =>
  ⟨s.readReg_zero, s.writeReg_zero, fun _ t h => ⟨t.readReg_zero, (exec_sameFixed h).zero_slot⟩⟩

/-- Settles O54, from what an instruction can write and the bytes of a store's access. -/
theorem writesFollowTheTables : Obligations.WritesFollowTheTables := by
  intro i s t h
  have hfixed := exec_sameFixed h
  refine ⟨hfixed.size, hfixed.sltuFunct, hfixed.handler, exec_writes h, fun rt rs imm => ⟨?_, ?_, ?_⟩⟩
  all_goals
    rintro rfl
    obtain rfl := Host.Outcome.next.inj h
    exact s.storeFrom_sameMemOutside _ _ rt rs imm

/-- Settles O55: the next state from another HI and LO is the same but for HI and LO. -/
theorem hiLoAreReadOnlyByTheirMoves : Obligations.HiLoAreReadOnlyByTheirMoves := by
  intro i s t h l hread hsys he
  obtain ⟨h', l', hu⟩ := exec_setHi_setLo h l hread hsys he
  exact ⟨_, hu, fun _ => rfl, rfl, ⟨rfl, fun _ => rfl⟩, rfl, rfl, rfl, rfl, rfl⟩

/-- Settles O3: the fetch gives the four bytes, and a step runs what they decode to. -/
theorem stepRunsTheDecodedInstruction : Obligations.StepRunsTheDecodedInstruction := by
  rintro s w i hrun hbounds rfl hdec
  exact step_of_decode hrun (State.fetch_of_inBounds hbounds) hdec

end Sys2Proof.Machine
end

section
/-! SUPPORT. Proofs of the statements on memory (spec/20_memory.md): the formula of R81, reads of parts of what was written, a
load and a fetch of what was stored. -/

namespace Sys2Proof.Machine

/-! ### The shift-and-or formula (R81) -/

theorem Memory.value_half_eq_or (m : Memory) (a : Nat) :
    m.value a .half = ((m.readByte a).setWidth 32 <<< 8) ||| (m.readByte (a + 1)).setWidth 32 := by
  unfold Memory.value beHalf
  exact BitVec.setWidth_append_eq_shiftLeft_setWidth_or

theorem Memory.value_word_eq_or (m : Memory) (a : Nat) :
    m.value a .word = ((m.readByte a).setWidth 32 <<< 24) ||| ((m.readByte (a + 1)).setWidth 32 <<< 16) |||
      ((m.readByte (a + 2)).setWidth 32 <<< 8) ||| (m.readByte (a + 3)).setWidth 32 := by
  rw [← BitVec.setWidth_eq (m.value a .word)]
  exact BitVec.setWidth_append_append_append_eq_shiftLeft_setWidth_or

/-! ### Reads of one byte and of two neighbouring bytes (R81, R85) -/

/-- An offset that stays below 2^32 does not wrap (R50). -/
theorem toNat_add_ofNat_of_lt {a : Word} {k : Nat} (h : a.toNat + k < 4294967296) :
    (a + BitVec.ofNat 32 k).toNat = a.toNat + k := by
  rw [BitVec.toNat_add, BitVec.toNat_ofNat]
  omega

/-- A byte in bounds is read zero-extended (R81). -/
theorem Memory.read_byte_eq {m : Memory} {p : Word} {a : Nat} {b : Byte} (hp : p.toNat = a) (h : a < m.size)
    (hb : m.readByte a = b) : m.read p .byte = some (b.setWidth 32) := by
  subst hp hb
  exact Memory.read_of_inBounds (w := .byte) h

/-- Where two neighbouring bytes are those of a halfword of `v`, the read gives that halfword. -/
theorem Memory.read_half_eq {m : Memory} {p v : Word} {a : Nat} (i : Nat) (hp : p.toNat = a) (h : a + 1 < m.size)
    (h0 : m.readByte a = v.extractLsb' (i + 8) 8) (h1 : m.readByte (a + 1) = v.extractLsb' i 8) :
    m.read p .half = some ((v.extractLsb' i 16).setWidth 32) := by
  subst hp
  have hparts : v.extractLsb' (i + 8) 8 ++ v.extractLsb' i 8 = v.extractLsb' i 16 :=
    BitVec.extractLsb'_append_extractLsb'_eq_extractLsb' rfl
  rw [Memory.read_of_inBounds (w := .half) h, Memory.value, h0, h1, beHalf, hparts]

/-! ### A load and a fetch after a store (R93, R96) -/

/-- A load after a store of the same width at the same operands gives the register what the memory holds there (R93). -/
theorem State.readReg_loadTo_storeFrom (s : State) (i j : Instr) (width : Width) (extend : Word → Word)
    (rt rd rs : RegIdx) (imm : Imm16) (h : (s.effectiveAddress rs imm).toNat + width.bytes - 1 < s.mem.size) :
    ((s.storeFrom i width rt rs imm).loadTo j width extend rd rs imm).readReg rd =
      if rd = 0 then 0#32 else
        extend ((s.mem.store (s.effectiveAddress rs imm).toNat (s.readReg rt) width).value
          (s.effectiveAddress rs imm).toNat width) := by
  have hea : ∀ m : Memory, (s.setMem m).advance.effectiveAddress rs imm = s.effectiveAddress rs imm := fun _ => rfl
  rw [s.storeFrom_inBounds i width rt rs imm h,
    State.loadTo_inBounds _ j width extend rd rs imm (by simpa [hea] using h)]
  simp [hea]

/-- The sign extension of a load sees the byte under MemRead's zero extension alone (R81, R231). -/
theorem sextByte_setWidth (b : Byte) : sextByte (b.setWidth 32) = b.signExtend 32 := by
  rw [sextByte, BitVec.setWidth_setWidth_of_le _ (by decide), BitVec.setWidth_eq]

/-- The sign extension of a load sees the halfword under MemRead's zero extension alone (R81, R233). -/
theorem sextHalf_setWidth (h : BitVec 16) : sextHalf (h.setWidth 32) = h.signExtend 32 := by
  rw [sextHalf, BitVec.setWidth_setWidth_of_le _ (by decide), BitVec.setWidth_eq]

/-! ### The statements -/

/-- Settles O9: a read in bounds gives the value of its bytes, which is the formula. -/
theorem memReadIsBigEndian : Obligations.MemReadIsBigEndian := by
  refine fun m a => ⟨fun h => Memory.read_of_inBounds (w := .byte) h, fun h => ?_, fun h => ?_⟩
  · rw [Memory.read_of_inBounds (w := .half) h, Memory.value_half_eq_or]
  · rw [Memory.read_of_inBounds (w := .word) h, Memory.value_word_eq_or]

/-- Settles O10: a write in bounds is the store, whose bytes, size and frame are known. -/
theorem memWriteIsBigEndianAndLocal : Obligations.MemWriteIsBigEndianAndLocal := by
  refine fun m a v => ⟨fun h => ?_, fun h => ?_, fun h => ?_⟩
  · exact ⟨_, Memory.write_of_inBounds (w := .byte) v h, rfl, m.readByte_store_byte .., fun b hb =>
      m.readByte_store_outside _ _ .byte (by simp only [Width.bytes]; omega)⟩
  · obtain ⟨h0, h1⟩ := m.readByte_store_half a.toNat v
    exact ⟨_, Memory.write_of_inBounds (w := .half) v h, rfl, h0, h1, fun b => m.readByte_store_outside _ _ .half⟩
  · obtain ⟨h0, h1, h2, h3⟩ := m.readByte_store_word a.toNat v
    exact ⟨_, Memory.write_of_inBounds (w := .word) v h, rfl, h0, h1, h2, h3, fun b => m.readByte_store_outside _ _ .word⟩

/-- Settles O11: the bounds check compares integers, and 0xFFFFFFFC + 3 is the greatest MEM_SIZE. -/
theorem boundsCheckDoesNotWrap : Obligations.BoundsCheckDoesNotWrap := by
  refine ⟨?_, fun s hsize hpc => (Memory.read_eq_none_iff s.mem s.pc .word).2 ?_⟩
  · rintro m a v w n (⟨rfl, rfl⟩ | ⟨rfl, rfl⟩ | ⟨rfl, rfl⟩)
    all_goals exact ⟨m.read_eq_none_iff .., m.write_eq_none_iff ..⟩
  · simp only [Width.bytes]
    omega

/-- Settles O12: the bytes of the store, at addresses that do not wrap since MEM_SIZE is at most 2^32-1. -/
theorem mixedWidthViewsAgree : Obligations.MixedWidthViewsAgree := by
  intro m n a w hwf
  have hmax : m.size ≤ 4294967295 := ((Memory.wf_iff m).1 hwf).1
  refine ⟨fun hw => ?_, fun hw => ?_⟩
  · obtain ⟨hb, hn⟩ := (Memory.write_eq_some_iff ..).1 hw
    have hsize : n.size = m.size := hn ▸ Memory.store_size ..
    obtain ⟨h0, h1, h2, h3⟩ := hn ▸ m.readByte_store_word a.toNat w
    simp only [Width.bytes] at hb
    have hadd : ∀ k, k ≤ 3 → (a + BitVec.ofNat 32 k).toNat = a.toNat + k := fun k hk =>
      toNat_add_ofNat_of_lt (by omega)
    exact ⟨Memory.read_byte_eq rfl (by omega) h0, Memory.read_byte_eq (hadd 1 (by decide)) (by omega) h1,
      Memory.read_byte_eq (hadd 2 (by decide)) (by omega) h2, Memory.read_byte_eq (hadd 3 (by decide)) (by omega) h3,
      Memory.read_half_eq 16 rfl (by omega) h0 h1, Memory.read_half_eq 0 (hadd 2 (by decide)) (by omega) h2 h3⟩
  · obtain ⟨hb, hn⟩ := (Memory.write_eq_some_iff ..).1 hw
    have hsize : n.size = m.size := hn ▸ Memory.store_size ..
    obtain ⟨h0, h1⟩ := hn ▸ m.readByte_store_half a.toNat w
    simp only [Width.bytes] at hb
    exact ⟨Memory.read_byte_eq rfl (by omega) h0,
      Memory.read_byte_eq (toNat_add_ofNat_of_lt (by omega)) (by omega) h1⟩

/-- Settles O29: the load reads where the store wrote, and the extensions see the stored bits alone. -/
theorem storeThenLoadReturnsTheValue : Obligations.StoreThenLoadReturnsTheValue := by
  rintro rt rd rs imm s a rfl
  have hload := fun (i j : Instr) (width : Width) (extend : Word → Word) =>
    s.readReg_loadTo_storeFrom i j width extend rt rd rs imm
  have hlow : (s.readReg rt).extractLsb' 0 8 = (s.readReg rt).setWidth 8 :=
    (BitVec.setWidth_eq_extractLsb' (by decide)).symm
  refine ⟨fun h => ⟨_, _, rfl, rfl, ?_⟩, fun h => ⟨_, _, _, rfl, rfl, rfl, ?_, ?_⟩, fun h => ⟨_, _, _, rfl, rfl, rfl, ?_, ?_⟩⟩
  · rw [hload _ _ .word id h, Memory.value_store_word, id]
  · rw [hload _ _ .half sextHalf h, Memory.value_store_half, sextHalf_setWidth]
  · rw [hload _ _ .half id h, Memory.value_store_half, id]
  · rw [hload _ _ .byte sextByte h, Memory.value_store_byte, sextByte_setWidth, hlow]
  · rw [hload _ _ .byte id h, Memory.value_store_byte, id, hlow]

/-- Settles O30: the state after the store reads at pc + 4, which is where it wrote. -/
theorem storedWordIsFetchedByTheNextStep : Obligations.StoredWordIsFetchedByTheNextStep := by
  intro rt rs imm s hea hb
  have hstore := s.storeFrom_inBounds (.sw rt rs imm) .word rt rs imm (hea ▸ hb)
  refine ⟨_, congrArg Host.Outcome.next hstore, ?_⟩
  rw [hea]
  have hfetch := Memory.read_of_inBounds (m := s.mem.store (s.pc + 4#32).toNat (s.readReg rt) .word) (w := .word) hb
  rwa [Memory.value_store_word] at hfetch

end Sys2Proof.Machine
end

section
/-! SUPPORT. Proofs of the statements on the encoding (spec/30_encoding.md): the fields as mask and shift, a word as the one of
its format with its fields, and that a word decodes to an instruction exactly when it is the encoded word up to the ignored
bits. -/

namespace Sys2Proof

/-! ### The fields by mask and shift (R121) -/

/-- The bits of a word from `lo` on, `len` of them, are the word masked and shifted. -/
theorem toNat_extractLsb'_eq_mask_shift (w : Word) (lo len : Nat) (h : lo + len ≤ 32) :
    (w.extractLsb' lo len).toNat = ((w &&& (BitVec.allOnes len).setWidth 32 <<< lo) >>> lo).toNat := by
  have hbits : (w.extractLsb' lo len).setWidth 32 = (w &&& (BitVec.allOnes len).setWidth 32 <<< lo) >>> lo := by
    apply BitVec.eq_of_getLsbD_eq
    intro i hi
    by_cases hin : i < len
    · simp [hin, hi, show lo + i < 32 by omega]
    · simp [hin]
  rw [← hbits, BitVec.toNat_setWidth_of_le (by omega)]

/-! ### The fields of a word with the bits of a mask cleared -/

theorem extractLsb'_clear_of_zero {m : Word} {lo len : Nat} (h : m.extractLsb' lo len = 0#len) (w : Word) :
    (w &&& ~~~m).extractLsb' lo len = w.extractLsb' lo len := by
  apply BitVec.eq_of_getLsbD_eq
  intro i hi
  have hm : m.getLsbD (lo + i) = false := by simpa [hi] using congrArg (·.getLsbD i) h
  simp only [BitVec.getLsbD_extractLsb', BitVec.getLsbD_and, BitVec.getLsbD_not, hm, hi]
  simpa using w.lt_of_getLsbD

theorem extractLsb'_clear_of_allOnes {m : Word} {lo len : Nat} (h : m.extractLsb' lo len = BitVec.allOnes len) (w : Word) :
    (w &&& ~~~m).extractLsb' lo len = 0#len := by
  apply BitVec.eq_of_getLsbD_eq
  intro i hi
  have hm : m.getLsbD (lo + i) = true := by simpa [hi] using congrArg (·.getLsbD i) h
  simp [hm]

/-- A field in which the mask has no bit is kept. -/
theorem fields_kept (w m : Word) :
    (opField m = 0#6 → opField (w &&& ~~~m) = opField w) ∧
    (rsField m = 0 → rsField (w &&& ~~~m) = rsField w) ∧
    (rtField m = 0 → rtField (w &&& ~~~m) = rtField w) ∧
    (rdField m = 0 → rdField (w &&& ~~~m) = rdField w) ∧
    (shamtField m = 0#5 → shamtField (w &&& ~~~m) = shamtField w) ∧
    (functField m = 0#6 → functField (w &&& ~~~m) = functField w) ∧
    (imm16Field m = 0#16 → imm16Field (w &&& ~~~m) = imm16Field w) ∧
    (target26Field m = 0#26 → target26Field (w &&& ~~~m) = target26Field w) ∧
    (codeField m = 0#20 → codeField (w &&& ~~~m) = codeField w) := by
  have hreg : ∀ lo, (m.extractLsb' lo 5).toFin = 0 → ((w &&& ~~~m).extractLsb' lo 5).toFin = (w.extractLsb' lo 5).toFin :=
    fun lo h => congrArg BitVec.toFin (extractLsb'_clear_of_zero (BitVec.toFin_inj.1 h) w)
  exact ⟨(extractLsb'_clear_of_zero · w), hreg 21, hreg 16, hreg 11, (extractLsb'_clear_of_zero · w),
    (extractLsb'_clear_of_zero · w), (extractLsb'_clear_of_zero · w), (extractLsb'_clear_of_zero · w),
    (extractLsb'_clear_of_zero · w)⟩

/-- A field that lies in the mask becomes zero. -/
theorem fields_cleared (w m : Word) :
    (rsField m = 31 → rsField (w &&& ~~~m) = 0) ∧
    (rtField m = 31 → rtField (w &&& ~~~m) = 0) ∧
    (rdField m = 31 → rdField (w &&& ~~~m) = 0) ∧
    (shamtField m = 31#5 → shamtField (w &&& ~~~m) = 0#5) := by
  have hreg : ∀ lo, (m.extractLsb' lo 5).toFin = 31 → ((w &&& ~~~m).extractLsb' lo 5).toFin = 0 :=
    fun lo h => congrArg BitVec.toFin (extractLsb'_clear_of_allOnes (BitVec.toFin_inj.1 h) w)
  exact ⟨hreg 21, hreg 16, hreg 11, (extractLsb'_clear_of_allOnes · w)⟩

/-! ### A word is the one of its format with its fields (R122 to R124) -/

/-- An R-type word is the word its fields were taken from (R122). -/
theorem rWord_fields (w : Word) (hop : opField w = 0#6) :
    rWord (rsField w) (rtField w) (rdField w) (shamtField w) (functField w) = w := by
  unfold rWord
  rw [← hop, regBits_rsField, regBits_rtField, regBits_rdField, opField, shamtField, functField]
  simp (disch := rfl) only [BitVec.extractLsb'_append_extractLsb'_eq_extractLsb']
  exact BitVec.extractLsb'_eq_self

section
variable {w : Word}

theorem rWord_eq_iff {rs rt rd : RegIdx} {sh : Shamt} {fn : BitVec 6} : rWord rs rt rd sh fn = w ↔
    opField w = 0#6 ∧ rsField w = rs ∧ rtField w = rt ∧ rdField w = rd ∧ shamtField w = sh ∧ functField w = fn := by
  refine ⟨?_, ?_⟩
  · rintro rfl
    simp
  · rintro ⟨hop, rfl, rfl, rfl, rfl, rfl⟩
    exact rWord_fields w hop

theorem iWord_eq_iff {op : BitVec 6} {rs rt : RegIdx} {imm : Imm16} : iWord op rs rt imm = w ↔
    opField w = op ∧ rsField w = rs ∧ rtField w = rt ∧ imm16Field w = imm := by
  refine ⟨?_, ?_⟩
  · rintro rfl
    simp
  · rintro ⟨rfl, rfl, rfl, rfl⟩
    exact iWord_fields w

theorem jWord_eq_iff {op : BitVec 6} {target : Target26} : jWord op target = w ↔
    opField w = op ∧ target26Field w = target := by
  refine ⟨?_, ?_⟩
  · rintro rfl
    simp
  · rintro ⟨rfl, rfl⟩
    exact jWord_fields w

theorem syscallWord_eq_iff {code : BitVec 20} : syscallWord code = w ↔
    opField w = 0#6 ∧ functField w = 0x0C#6 ∧ codeField w = code := by
  refine ⟨?_, ?_⟩
  · rintro rfl
    simp
  · rintro ⟨hop, hfn, rfl⟩
    exact syscallWord_fields w hop hfn

end

/-! ### The decoder on op and on funct (R129, R130) -/

/-- Op 0 is the SPECIAL map. -/
theorem decode_of_op_zero {w : Word} (f : SltuFunct) (hop : opField w = 0#6) : decode f w = decodeSpecial f w := by
  simp only [decode, hop]

/-- SLTU_FUNCT selects `sltu`: neither of its values is another row of the SPECIAL map. -/
theorem decodeSpecial_of_sltu {f : SltuFunct} {w : Word} (hfn : functField w = f.code) :
    decodeSpecial f w = .ok (.sltu (rdField w) (rsField w) (rtField w)) := by
  cases f <;> simp [decodeSpecial, hfn, SltuFunct.code]

/-! ### Decoding after encoding -/

/-- The fields of an encoded word select the instruction's row and are its operands. -/
theorem decode_encode (f : SltuFunct) (i : Instr) : decode f (encode f i) = .ok i := by
  cases i with
  | sltu rd rs rt => simp [encode, decode_of_op_zero, decodeSpecial_of_sltu]
  | _ => simp [encode, decode, decodeSpecial]

/-! ### A word decodes to an instruction exactly when it is the encoded word up to the ignored bits (R127) -/

/-- A row of the SPECIAL map: the fields outside its mask are the operands. The last branch is `sltu` or a dash. -/
theorem encode_eq_clear_of_decodeSpecial {f : SltuFunct} {w : Word} {i : Instr} (hop : opField w = 0#6)
    (h : decodeSpecial f w = .ok i) : encode f i = w &&& ~~~(ignoredMask i) := by
  unfold decodeSpecial at h
  split at h
  on_goal 27 => split at h
  all_goals cases h
  all_goals
    simp (disch := decide) only [encode, ignoredMask, rWord_eq_iff, syscallWord_eq_iff, fields_kept, fields_cleared, *,
      and_self]

/-- A row of the primary map: the fields outside its mask are the operands. -/
theorem encode_eq_clear_of_decode {f : SltuFunct} {w : Word} {i : Instr} (h : decode f w = .ok i) :
    encode f i = w &&& ~~~(ignoredMask i) := by
  unfold decode at h
  split at h
  case h_1 hop => exact encode_eq_clear_of_decodeSpecial hop h
  all_goals cases h
  all_goals
    simp (disch := decide) only [encode, ignoredMask, iWord_eq_iff, jWord_eq_iff, fields_kept, fields_cleared, *, and_self]

/-- The fields that the mask leaves select the instruction's row and are its operands. -/
theorem decode_of_encode_eq_clear {f : SltuFunct} {w : Word} {i : Instr} (h : encode f i = w &&& ~~~(ignoredMask i)) :
    decode f w = .ok i := by
  cases i with
  | sltu rd rs rt =>
    simp (disch := decide) only [encode, ignoredMask, rWord_eq_iff, fields_kept, fields_cleared] at h
    obtain ⟨hop, rfl, rfl, rfl, -, hfn⟩ := h
    rw [decode_of_op_zero f hop, decodeSpecial_of_sltu hfn]
  | _ =>
    simp (disch := decide) only [encode, ignoredMask, rWord_eq_iff, jWord_eq_iff, iWord_eq_iff, syscallWord_eq_iff,
      fields_kept, fields_cleared] at h
    simp only [decode, decodeSpecial, h]

/-- What a word decodes to is fixed by, and fixes, its bits outside the ignored ones. -/
theorem decode_eq_ok_iff {f : SltuFunct} {w : Word} {i : Instr} :
    decode f w = .ok i ↔ encode f i = w &&& ~~~(ignoredMask i) :=
  ⟨encode_eq_clear_of_decode, decode_of_encode_eq_clear⟩

end Sys2Proof

namespace Sys2Proof.Machine

/-! ### The opcode maps (R129, R130) -/

/-- The branches of the SPECIAL map; the last is `sltu` or a dash. -/
theorem decodeSpecial_ok_iff (f : SltuFunct) (w : Word) :
    (∃ i, decodeSpecial f w = .ok i) ↔ functField w ∈ mappedFuncts ∨ functField w = f.code := by
  unfold decodeSpecial
  split
  case h_27 =>
    have hdash : functField w ∉ mappedFuncts := by simp_all [mappedFuncts]
    by_cases hf : functField w = f.code <;> simp [hf, hdash]
  all_goals simp [mappedFuncts, *]

/-- The branches of the primary map; the last is a dash. -/
theorem decode_ok_iff_mapped (f : SltuFunct) (w : Word) : (∃ i, decode f w = .ok i) ↔ Mapped f w := by
  unfold decode
  split
  case h_1 hop => simp [Mapped, mappedOps, hop, decodeSpecial_ok_iff]
  case h_21 =>
    have hdash : opField w ∉ mappedOps := by simp_all [mappedOps]
    simp [Mapped, hdash]
  all_goals simp [Mapped, mappedOps, *]

/-- A step of a running machine whose fetched word does not decode (R140, R401). -/
theorem step_of_decode_error {s : State} {w : Word} {e : DecodeReject} (hr : s.status = .running) (hf : s.fetch = some w)
    (hd : decode s.sltuFunct w = .error e) : step s = .next (s.raiseDecodeError w) := by
  simp only [step, State.cycle, hr, State.runCycle, hf, hd]

/-! ### The word of a `syscall` (R340; log 12) -/

/-- A `syscall` whose handler answers an outcome completes (R340). -/
theorem exec_syscall_of_chosen {s : State} {o : HandlerOutcome} (h : s.chosenOutcome = some o) (code : BitVec 20) :
    exec (.syscall code) s = .next (s.countChoice.finishSyscall (encode s.sltuFunct (.syscall code)) o) := by
  simp only [exec, execSyscall, h]

/-- Two states that differ at most in the word of a halt record. -/
def SameButHaltWord (t u : State) : Prop :=
  u = t.setStatus u.status ∧ (t.status = .running → u.status = .running) ∧
    ∀ r, t.status = .halted r → ∃ word, u.status = .halted { r with word := word }

/-- The fetched word is seen in the record of a termination alone. -/
theorem State.finishSyscall_sameButHaltWord (s : State) (w v : Word) (o : HandlerOutcome) :
    SameButHaltWord (s.finishSyscall w o) (s.finishSyscall v o) := by
  cases o with
  | continueWith es => exact ⟨rfl, id, fun r h => ⟨r.word, h⟩⟩
  | terminateWith es =>
    refine ⟨rfl, nofun, fun r h => ⟨some v, ?_⟩⟩
    obtain rfl := Status.halted.inj h
    rfl

/-! ### The statements -/

/-- Settles O16, instruction by instruction. -/
theorem decodeOfEncodeIsTheInstruction : Obligations.DecodeOfEncodeIsTheInstruction := fun f i _ => decode_encode f i

/-- Settles O17, branch by branch of the decoder: the word's fields outside the mask are the operands. -/
theorem encodeOfDecodeKeepsEveryReadBit : Obligations.EncodeOfDecodeKeepsEveryReadBit := fun _ _ _ => decode_eq_ok_iff.1

/-- Settles O18: equal bits outside the mask are one encoded word; a `syscall` completes whenever its handler answers. -/
theorem ignoredFieldsNeverSelect : Obligations.IgnoredFieldsNeverSelect := by
  refine ⟨fun f w v i hw hwv => ?_, fun f w hop hfn => ?_, fun code code' s t h => ?_⟩
  · exact decode_eq_ok_iff.2 ((decode_eq_ok_iff.1 hw).trans hwv)
  · simp only [decode_of_op_zero f hop, decodeSpecial, hfn]
  · obtain ⟨o, hchosen, -, rfl⟩ := exec_syscall h
    exact ⟨_, exec_syscall_of_chosen hchosen code', State.finishSyscall_sameButHaltWord ..⟩

/-- Settles O14: each field is some bits of the word, and its mask is that many ones at its place. -/
theorem fieldsAreMaskAndShift : Obligations.FieldsAreMaskAndShift := fun w =>
  ⟨toNat_extractLsb'_eq_mask_shift w 26 6 (by decide),
    toNat_extractLsb'_eq_mask_shift w 21 5 (by decide),
    toNat_extractLsb'_eq_mask_shift w 16 5 (by decide),
    toNat_extractLsb'_eq_mask_shift w 11 5 (by decide),
    toNat_extractLsb'_eq_mask_shift w 6 5 (by decide),
    toNat_extractLsb'_eq_mask_shift w 0 6 (by decide),
    toNat_extractLsb'_eq_mask_shift w 0 16 (by decide),
    toNat_extractLsb'_eq_mask_shift w 0 26 (by decide)⟩

/-- Settles O15: the branches of the decoder are the rows of the maps. -/
theorem decodingFollowsTheOpcodeMaps : Obligations.DecodingFollowsTheOpcodeMaps := decode_ok_iff_mapped

/-- Settles O5: the word does not decode, and raising the error sets `status` alone. -/
theorem unmappedWordHaltsWithDecodeError : Obligations.UnmappedWordHaltsWithDecodeError := by
  intro s w hrun hfetch hmap
  cases hd : decode s.sltuFunct w with
  | ok i => exact absurd ((decode_ok_iff_mapped ..).1 ⟨i, hd⟩) hmap
  | error e =>
    exact ⟨_, step_of_decode_error hrun hfetch hd, rfl, fun _ => rfl, rfl, ⟨rfl, rfl⟩, ⟨rfl, fun _ => rfl⟩, rfl, rfl, rfl, rfl⟩

end Sys2Proof.Machine
end

section
/-! SUPPORT. Proofs of the statements on control transfer (spec/41_control.md): the two frames that every transfer ends in,
where a jump and a branch can land, the pc after every other instruction. -/

namespace Sys2Proof.Machine

/-! ### The frames -/

theorem State.setPc_writesPc (s : State) (pc : Word) : WritesPc s (s.setPc pc) pc :=
  ⟨fun _ => rfl, rfl, ⟨rfl, rfl⟩, ⟨rfl, fun _ => rfl⟩, rfl, rfl, rfl, rfl, rfl⟩

theorem State.writeReg_setPc_writesReg (s : State) (rd : RegIdx) (v pc : Word) :
    WritesReg s ((s.writeReg rd v).setPc pc) rd v pc := by
  refine ⟨fun k => ?_, rfl, ⟨?_, ?_⟩, ⟨?_, fun a => ?_⟩, ?_, ?_, ?_, ?_, ?_⟩
  · exact s.readReg_writeReg rd k v
  all_goals simp

/-! ### The meanings, as the updates they are (R200 to R207) -/

section
variable (target : Target26) (rd rs rt : RegIdx) (off : Imm16) (s : State)

theorem exec_j : exec (.j target) s = .next (s.setPc (jumpTarget s.pc target)) := rfl

theorem exec_jal : exec (.jal target) s = .next ((s.writeReg 31 s.nextPc).setPc (jumpTarget s.pc target)) := rfl

theorem exec_jr : exec (.jr rs) s = .next (s.setPc (s.readReg rs)) := rfl

theorem exec_jalr : exec (.jalr rd rs) s = .next ((s.writeReg rd s.nextPc).setPc (s.readReg rs)) := rfl

theorem exec_beq : exec (.beq rs rt off) s =
    .next (s.setPc (if s.readReg rs = s.readReg rt then branchTarget s.pc off else s.nextPc)) := by
  simp [exec, execBeq]

theorem exec_bne : exec (.bne rs rt off) s =
    .next (s.setPc (if s.readReg rs = s.readReg rt then s.nextPc else branchTarget s.pc off)) := by
  simp [exec, execBne]

theorem exec_blez : exec (.blez rs off) s =
    .next (s.setPc (if (s.readReg rs).toInt ≤ 0 then branchTarget s.pc off else s.nextPc)) := by
  simp [exec, execBlez, signedNotPositive]

theorem exec_bgtz : exec (.bgtz rs off) s =
    .next (s.setPc (if 0 < (s.readReg rs).toInt then branchTarget s.pc off else s.nextPc)) := by
  simp [exec, execBgtz, signedPositive]

end

/-! ### Where transfers land (R126, R200, R208, R210) -/

/-- A displacement times four fits a word, so it does not wrap. -/
theorem toInt_sext16_shiftLeft (off : Imm16) : (sext16 off <<< 2).toInt = 4 * off.toInt := by
  have hlo := off.le_toInt
  have hhi := off.toInt_lt
  rw [BitVec.shiftLeft_eq_mul_twoPow, BitVec.toInt_mul, sext16, BitVec.toInt_signExtend_of_le (by decide)]
  have h4 : (BitVec.twoPow 32 2).toInt = 4 := by decide
  rw [h4, Int.bmod_eq_of_le (by omega) (by omega), Int.mul_comm]

theorem branchTarget_reaches (s : State) (off : Imm16) : BranchReaches s (s.setPc (branchTarget s.pc off)) off := by
  have hlo := off.le_toInt
  have hhi := off.toInt_lt
  have hdist : (branchTarget s.pc off - (s.pc + 4#32)).toInt = 4 * off.toInt := by
    rw [branchTarget, BitVec.add_comm, BitVec.add_sub_cancel, toInt_sext16_shiftLeft]
  rw [BranchReaches, State.setPc_pc, hdist]
  omega

/-- A word shifted left by two is a multiple of four. -/
theorem toNat_shiftLeft_two_mod_four (w : Word) : (w <<< 2).toNat % 4 = 0 := by
  rw [BitVec.toNat_shiftLeft, Nat.shiftLeft_eq]
  omega

theorem nextPc_mod_four (s : State) : s.nextPc.toNat % 4 = s.pc.toNat % 4 := by
  rw [State.nextPc, BitVec.toNat_add, BitVec.toNat_ofNat]
  omega

theorem branchTarget_mod_four (pc : Word) (off : Imm16) : (branchTarget pc off).toNat % 4 = pc.toNat % 4 := by
  have hoff := toNat_shiftLeft_two_mod_four (sext16 off)
  rw [branchTarget, BitVec.toNat_add, BitVec.toNat_add, BitVec.toNat_ofNat]
  omega

/-- Both parts of a jump target have zeros in the low two bits. -/
theorem jumpTarget_mod_four (pc : Word) (target : Target26) : (jumpTarget pc target).toNat % 4 = 0 := by
  have hregion : (pc &&& 0xF0000000#32).toNat % 2 ^ 2 = 0 := by
    have hmask : (0xF0000000#32).toNat % 2 ^ 2 = 0 := rfl
    rw [BitVec.toNat_and, Nat.and_mod_two_pow, hmask, Nat.and_zero]
  have hoff : (target.setWidth 32 <<< 2).toNat % 2 ^ 2 = 0 := toNat_shiftLeft_two_mod_four _
  rw [jumpTarget, BitVec.toNat_or, show 4 = 2 ^ 2 from rfl, Nat.or_mod_two_pow, hregion, hoff]
  rfl

/-! ### The pc after an instruction that is no transfer (R209) -/

/-- Outside the transfers, the loads, the stores and `syscall`, every meaning advances. -/
theorem exec_plain_pc {i : Instr} {s t : State} (h : exec i s = .next t) (htransfer : i.isControlTransfer = false)
    (hs : i.isStore = false) (hc : i.isSyscall = false) (hl : i.isLoad = false) : t.pc = s.nextPc := by
  cases i with
  | j | jal | jr | jalr | beq | bne | blez | bgtz => cases htransfer
  | lb | lbu | lh | lhu | lw => cases hl
  | sb | sh | sw => cases hs
  | syscall => cases hc
  | div | divu =>
    obtain rfl := Host.Outcome.next.inj h
    split <;> rfl
  | mult | multu | mthi | mtlo =>
    obtain rfl := Host.Outcome.next.inj h
    rfl
  | _ =>
    obtain rfl := Host.Outcome.next.inj h
    exact s.writeReg_nextPc ..

/-- An instruction but a transfer or `syscall` advances and leaves the status, or halts where it is (R209, R404). -/
theorem exec_pc {i : Instr} {s t : State} (h : exec i s = .next t) (htransfer : i.isControlTransfer = false)
    (hc : i.isSyscall = false) :
    (t.pc = s.nextPc ∧ t.status = s.status) ∨ (t.pc = s.pc ∧ t.status ≠ .running) := by
  by_cases hl : i.isLoad = true
  · obtain ⟨r, v, -, rfl⟩ | ⟨a, rfl⟩ := exec_load h hl
    · exact .inl (by simp)
    · exact .inr ⟨rfl, nofun⟩
  by_cases hs : i.isStore = true
  · obtain ⟨_, _, _, m, -, rfl⟩ | ⟨a, rfl⟩ := exec_store h hs
    · exact .inl ⟨rfl, rfl⟩
    · exact .inr ⟨rfl, nofun⟩
  · have hl : i.isLoad = false := by simpa using hl
    have hs : i.isStore = false := by simpa using hs
    obtain ⟨-, hstatus, -⟩ := exec_plain h hs hc hl
    exact .inl ⟨exec_plain_pc h htransfer hs hc hl, hstatus⟩

/-! ### The statements -/

/-- Settles O23: the condition selects the branch's target, whose distance and low bits are known. -/
theorem transferTargetsReachAndAlign : Obligations.TransferTargetsReachAndAlign := by
  refine ⟨fun rs rt off s => ?_, fun s t => ⟨fun target h => ?_, fun rs rt off h => ?_⟩⟩
  · have hreach := branchTarget_reaches s off
    refine ⟨fun h => ⟨_, exec_beq .., ?_⟩, fun h => ⟨_, exec_bne .., ?_⟩, fun h => ⟨_, exec_blez .., ?_⟩,
      fun h => ⟨_, exec_bgtz .., ?_⟩⟩
    all_goals simpa only [h, if_true, if_false] using hreach
  · obtain h | h := h
    all_goals
      obtain rfl := Host.Outcome.next.inj h
      exact jumpTarget_mod_four ..
  · rw [exec_beq, exec_bne, exec_blez, exec_bgtz] at h
    obtain h | h | h | h := h
    all_goals
      obtain rfl := Host.Outcome.next.inj h
      rw [State.setPc_pc]
      split
    all_goals simp only [branchTarget_mod_four, nextPc_mod_four]

/-- Settles O56: of the two ways to end, a running machine goes the one and a halted machine the other. -/
theorem pcAdvancesByFourOutsideTransfers : Obligations.PcAdvancesByFourOutsideTransfers := by
  intro i s t htransfer hsys hrun h
  obtain ⟨hpc, hstatus⟩ | ⟨hpc, hhalted⟩ := exec_pc h htransfer hsys
  · exact ⟨fun _ => hpc, fun hne => absurd (hstatus.trans hrun) hne⟩
  · exact ⟨fun heq => absurd heq hhalted, fun _ => hpc⟩

/-- Settles O20, from the decoder's rows and the two frames. -/
theorem jumpsGoToTheirTargets : Obligations.JumpsGoToTheirTargets := by
  refine ⟨fun f w hop => ?_, fun f w hop => ?_, fun f w hop hfn => ?_, fun target s => ⟨?_, ?_⟩, fun rs s => ?_⟩
  · simp only [decode, hop]
  · simp only [decode, hop]
  · simp only [decode_of_op_zero f hop, decodeSpecial, hfn]
  · exact ⟨_, exec_j .., s.setPc_writesPc _⟩
  · exact ⟨_, exec_jal .., s.writeReg_setPc_writesReg ..⟩
  · exact ⟨_, exec_jr .., s.setPc_writesPc _⟩

/-- Settles O21: the target is read from the state before the link. -/
theorem jumpAndLinkRegisterReadsBeforeLinking : Obligations.JumpAndLinkRegisterReadsBeforeLinking := by
  refine ⟨fun f w hop hfn => ?_, fun rd rs s => ?_⟩
  · simp only [decode_of_op_zero f hop, decodeSpecial, hfn]
  · exact ⟨_, exec_jalr .., s.writeReg_setPc_writesReg ..⟩

/-- Settles O22, from the decoder's rows and each branch as a new pc. -/
theorem branchesTakeOrFallThrough : Obligations.BranchesTakeOrFallThrough := by
  refine ⟨?_, ?_, ?_, ?_, fun rs rt off s =>
    ⟨⟨_, exec_beq .., s.setPc_writesPc _⟩, ⟨_, exec_bne .., s.setPc_writesPc _⟩,
      ⟨_, exec_blez .., s.setPc_writesPc _⟩, ⟨_, exec_bgtz .., s.setPc_writesPc _⟩⟩⟩
  all_goals
    intro f w hop
    simp only [decode, hop]

/-- Settles O24: jr reads the link that the jal wrote. -/
theorem jalThenJrReturns : Obligations.JalThenJrReturns := by
  intro target s
  refine ⟨_, exec_jal .., fun u hu => ⟨_, exec_jr .., ?_⟩⟩
  obtain ⟨hlink, -⟩ := s.writeReg_setPc_writesReg 31 s.nextPc (jumpTarget s.pc target)
  exact hu.trans (hlink 31)

end Sys2Proof.Machine
end

section
/-! SUPPORT. Proofs of the statements on loads and stores (spec/42_loadstore.md): the effective address as an integer, the one
frame in which every load in bounds ends, the one of every store, and the one of every access out of bounds. -/

namespace Sys2Proof.Machine

/-! ### The effective address (R230) -/

/-- A sign-extended displacement is its signed value modulo 2^32 (R18). -/
theorem toNat_sext16 (imm : Imm16) : ((sext16 imm).toNat : Int) = imm.toInt % 4294967296 := by
  rw [sext16, BitVec.signExtend, BitVec.toNat_ofInt]
  omega

theorem State.toNat_effectiveAddress (s : State) (rs : RegIdx) (imm : Imm16) :
    ((s.effectiveAddress rs imm).toNat : Int) = ((s.readReg rs).toNat + imm.toInt) % 4294967296 := by
  have hoff := toNat_sext16 imm
  rw [State.effectiveAddress, BitVec.toNat_add]
  omega

/-! ### The frames -/

/-- A register write that advances. -/
theorem State.writeReg_advance_writesReg (s : State) (rd : RegIdx) (v : Word) :
    WritesReg s (s.writeReg rd v).advance rd v (s.pc + 4#32) := by
  rw [State.advance, State.writeReg_nextPc]
  exact s.writeReg_setPc_writesReg rd v s.nextPc

/-- A store of MEM that advances. -/
theorem State.setMem_store_advance_writesMem (s : State) (a : Nat) (v : Word) (width : Width) :
    WritesMem s (s.setMem (s.mem.store a v width)).advance a width.bytes :=
  ⟨fun _ => rfl, rfl, ⟨rfl, rfl⟩, ⟨Memory.store_size .., fun _ hb => Memory.readByte_store_outside _ _ _ _ hb⟩,
    rfl, rfl, rfl, rfl, rfl⟩

/-- Taking a MemoryFault writes `status` alone (R402, R404). -/
theorem State.raiseMemoryFault_haltsWith (s : State) (w : Option Word) (a : Word) :
    HaltsWith s (s.raiseMemoryFault w a) ⟨.memoryFault, s.pc, w, some a⟩ :=
  ⟨rfl, fun _ => rfl, rfl, ⟨rfl, rfl⟩, ⟨rfl, fun _ => rfl⟩, rfl, rfl, rfl, rfl⟩

/-! ### The two shared operations, in bounds and out of bounds -/

section
variable {s : State} {width : Width} {rt rs : RegIdx} {imm : Imm16} (i : Instr) (extend : Word → Word)

/-- A load in bounds writes the extended value at EA to rt (R231 to R235). -/
theorem State.loadTo_writesReg (h : (s.effectiveAddress rs imm).toNat + width.bytes - 1 < s.mem.size) :
    WritesReg s (s.loadTo i width extend rt rs imm) rt (extend (s.mem.value (s.effectiveAddress rs imm).toNat width))
      (s.pc + 4#32) := by
  rw [s.loadTo_inBounds i width extend rt rs imm h]
  exact s.writeReg_advance_writesReg ..

/-- A store in bounds leaves the store of MEM, and changes nothing but its bytes and the pc (R237 to R239). -/
theorem State.storeFrom_writesMem (h : (s.effectiveAddress rs imm).toNat + width.bytes - 1 < s.mem.size) :
    WritesMem s (s.storeFrom i width rt rs imm) (s.effectiveAddress rs imm).toNat width.bytes ∧
    (s.storeFrom i width rt rs imm).mem = s.mem.store (s.effectiveAddress rs imm).toNat (s.readReg rt) width := by
  rw [s.storeFrom_inBounds i width rt rs imm h]
  exact ⟨s.setMem_store_advance_writesMem .., rfl⟩

/-- A load out of bounds halts at EA (R402, R404). -/
theorem State.loadTo_haltsWith (h : s.mem.size ≤ (s.effectiveAddress rs imm).toNat + width.bytes - 1) :
    HaltsWith s (s.loadTo i width extend rt rs imm)
      ⟨.memoryFault, s.pc, some (encode s.sltuFunct i), some (s.effectiveAddress rs imm)⟩ := by
  rw [s.loadTo_outOfBounds i width extend rt rs imm h]
  exact s.raiseMemoryFault_haltsWith ..

/-- A store out of bounds halts at EA (R241, R402, R404). -/
theorem State.storeFrom_haltsWith (h : s.mem.size ≤ (s.effectiveAddress rs imm).toNat + width.bytes - 1) :
    HaltsWith s (s.storeFrom i width rt rs imm)
      ⟨.memoryFault, s.pc, some (encode s.sltuFunct i), some (s.effectiveAddress rs imm)⟩ := by
  rw [s.storeFrom_outOfBounds i width rt rs imm h]
  exact s.raiseMemoryFault_haltsWith ..

end

/-! ### The statements -/

/-- Settles O25: both summands are taken modulo 2^32. -/
theorem effectiveAddressIsBasePlusOffsetWrapped : Obligations.EffectiveAddressIsBasePlusOffsetWrapped :=
  State.toNat_effectiveAddress

/-- Settles O26, from the decoder's rows and the frame of a load; a sign extension sees the bytes that were read alone. -/
theorem loadsCompleteInBounds : Obligations.LoadsCompleteInBounds := by
  refine ⟨?_, ?_, ?_, ?_, ?_, ?meaning⟩
  case meaning =>
    rintro rt rs imm s a rfl
    refine ⟨fun h => ⟨⟨_, rfl, ?_⟩, ⟨_, rfl, ?_⟩⟩, fun h => ⟨⟨_, rfl, ?_⟩, ⟨_, rfl, ?_⟩⟩, fun h => ⟨_, rfl, ?_⟩⟩
    · rw [← sextByte_setWidth]
      exact State.loadTo_writesReg _ sextByte h
    · exact State.loadTo_writesReg _ id h
    · rw [← sextHalf_setWidth]
      exact State.loadTo_writesReg _ sextHalf h
    · exact State.loadTo_writesReg _ id h
    · exact State.loadTo_writesReg _ id h
  all_goals
    intro f w hop
    simp only [decode, hop]

/-- Settles O27, from the decoder's rows, the frame of a store and the bytes that it writes. -/
theorem storesCompleteInBounds : Obligations.StoresCompleteInBounds := by
  refine ⟨?_, ?_, ?_, ?meaning⟩
  case meaning =>
    rintro rt rs imm s a rfl
    refine ⟨fun h => ⟨_, rfl, ?_⟩, fun h => ⟨_, rfl, ?_⟩, fun h => ⟨_, rfl, ?_⟩⟩
    · obtain ⟨hframe, hmem⟩ := State.storeFrom_writesMem (width := .byte) (rt := rt) (.sb rt rs imm) h
      exact ⟨hframe, hmem ▸ Memory.readByte_store_byte ..⟩
    · obtain ⟨hframe, hmem⟩ := State.storeFrom_writesMem (width := .half) (rt := rt) (.sh rt rs imm) h
      exact ⟨hframe, hmem ▸ Memory.readByte_store_half ..⟩
    · obtain ⟨hframe, hmem⟩ := State.storeFrom_writesMem (width := .word) (rt := rt) (.sw rt rs imm) h
      exact ⟨hframe, hmem ▸ Memory.readByte_store_word ..⟩
  all_goals
    intro f w hop
    simp only [decode, hop]

/-- Settles O28, width by width: the bounds check fails, and the fault sets `status` alone. -/
theorem accessesOutOfBoundsHaltPrecisely : Obligations.AccessesOutOfBoundsHaltPrecisely := by
  rintro rt rs imm s ea i rfl (⟨h, rfl | rfl | rfl⟩ | ⟨h, rfl | rfl | rfl⟩ | ⟨h, rfl | rfl⟩)
  · exact ⟨_, rfl, State.loadTo_haltsWith _ _ h⟩
  · exact ⟨_, rfl, State.loadTo_haltsWith _ _ h⟩
  · exact ⟨_, rfl, State.storeFrom_haltsWith _ h⟩
  · exact ⟨_, rfl, State.loadTo_haltsWith _ _ h⟩
  · exact ⟨_, rfl, State.loadTo_haltsWith _ _ h⟩
  · exact ⟨_, rfl, State.storeFrom_haltsWith _ h⟩
  · exact ⟨_, rfl, State.loadTo_haltsWith _ _ h⟩
  · exact ⟨_, rfl, State.storeFrom_haltsWith _ h⟩

/-- Settles O31, from the decoder's row: the meaning is a register write that advances. -/
theorem luiLoadsTheUpperHalf : Obligations.LuiLoadsTheUpperHalf := by
  refine ⟨fun f w hop => ?_, fun rt imm s => ⟨_, rfl, s.writeReg_advance_writesReg ..⟩⟩
  simp only [decode, hop]

end Sys2Proof.Machine
end

section
/-! SUPPORT. Proofs of the statements on immediate operations and on sums and differences (spec/43_immediate.md,
spec/44_alu.md §2): sums and differences of words as words of exact integers, the meanings as register writes. -/

namespace Sys2Proof.Machine

/-! ### Words of exact results (R17, R18) -/

/-- The word of a difference is the difference of the words. -/
theorem ofInt_sub (w : Nat) (x y : Int) : BitVec.ofInt w (x - y) = BitVec.ofInt w x - BitVec.ofInt w y := by
  rw [Int.sub_eq_add_neg, BitVec.ofInt_add, BitVec.ofInt_neg, ← BitVec.sub_eq_add_neg]

section
variable (a b : Word) (imm hi lo : Imm16)

theorem ofNat_toNat_add : BitVec.ofNat 32 (a.toNat + b.toNat) = a + b := by
  rw [BitVec.ofNat_add, BitVec.ofNat_toNat, BitVec.ofNat_toNat, BitVec.setWidth_eq, BitVec.setWidth_eq]

theorem ofInt_toInt_add : BitVec.ofInt 32 (a.toInt + b.toInt) = a + b := by
  rw [BitVec.ofInt_add, BitVec.ofInt_toInt, BitVec.ofInt_toInt]

theorem ofInt_toInt_sub : BitVec.ofInt 32 (a.toInt - b.toInt) = a - b := by
  rw [ofInt_sub, BitVec.ofInt_toInt, BitVec.ofInt_toInt]

theorem ofInt_toNat_sub : BitVec.ofInt 32 ((a.toNat : Int) - b.toNat) = a - b := by
  rw [ofInt_sub, BitVec.ofInt_natCast, BitVec.ofInt_natCast, BitVec.ofNat_toNat, BitVec.ofNat_toNat, BitVec.setWidth_eq,
    BitVec.setWidth_eq]

/-- A sign extension is the word of the signed value (R18). -/
theorem ofInt_toInt_add_imm : BitVec.ofInt 32 (a.toInt + imm.toInt) = a + sext16 imm := by
  rw [BitVec.ofInt_add, BitVec.ofInt_toInt, sext16, BitVec.signExtend]

/-- A halfword shifted up and one zero-extended share no bit, so their or puts the one above the other. -/
theorem shiftLeft_or_setWidth : hi.setWidth 32 <<< 16 ||| lo.setWidth 32 = hi ++ lo := by
  rw [BitVec.append_def, BitVec.shiftLeftZeroExtend_eq, BitVec.setWidth'_eq]

end

/-! ### The meanings, as register writes of the values that the rules name (R260 to R263, R286 to R289) -/

section
variable (rd rs rt : RegIdx) (imm : Imm16) (s : State)

theorem exec_addi : exec (.addi rt rs imm) s =
    .next (s.writeReg rt (BitVec.ofInt 32 ((s.readReg rs).toInt + imm.toInt))).advance := by
  rw [ofInt_toInt_add_imm, exec, execAddi, State.finishImmediate_eq]

theorem exec_addiu : exec (.addiu rt rs imm) s = .next (s.writeReg rt (s.readReg rs + imm.signExtend 32)).advance := rfl

theorem exec_ori : exec (.ori rt rs imm) s = .next (s.writeReg rt (s.readReg rs ||| imm.setWidth 32)).advance := rfl

theorem exec_xori : exec (.xori rt rs imm) s = .next (s.writeReg rt (s.readReg rs ^^^ imm.setWidth 32)).advance := rfl

theorem exec_add : exec (.add rd rs rt) s =
    .next (s.writeReg rd (BitVec.ofInt 32 ((s.readReg rs).toInt + (s.readReg rt).toInt))).advance := by
  rw [ofInt_toInt_add, exec, execAdd, State.finishAlu_eq]

theorem exec_addu : exec (.addu rd rs rt) s =
    .next (s.writeReg rd (BitVec.ofNat 32 ((s.readReg rs).toNat + (s.readReg rt).toNat))).advance := by
  rw [ofNat_toNat_add, exec, execAddu, State.finishAlu_eq]

theorem exec_sub : exec (.sub rd rs rt) s =
    .next (s.writeReg rd (BitVec.ofInt 32 ((s.readReg rs).toInt - (s.readReg rt).toInt))).advance := by
  rw [ofInt_toInt_sub, exec, execSub, State.finishAlu_eq]

theorem exec_subu : exec (.subu rd rs rt) s =
    .next (s.writeReg rd (BitVec.ofInt 32 (((s.readReg rs).toNat : Int) - (s.readReg rt).toNat))).advance := by
  rw [ofInt_toNat_sub, exec, execSubu, State.finishAlu_eq]

end

/-- What the written register reads as (R42). -/
theorem WritesReg.readReg_self {s t : State} {rd : RegIdx} {v pc : Word} (h : WritesReg s t rd v pc) :
    t.readReg rd = if rd = 0 then 0#32 else v := by
  obtain ⟨hregs, -⟩ := h
  rw [hregs rd, if_pos rfl]

/-! ### The statements -/

/-- Settles O33; of the pair, the ori reads the upper half that the lui wrote. -/
theorem oriAndTheLuiOriConstant : Obligations.OriAndTheLuiOriConstant := by
  refine ⟨fun f w hop => ?_, fun rt rs imm s => ⟨_, exec_ori .., s.writeReg_advance_writesReg ..⟩, fun rt hi lo s => ?_⟩
  · simp only [decode, hop]
  · obtain ⟨t, hlui, ht⟩ := luiLoadsTheUpperHalf.2 rt hi s
    have hu := t.writeReg_advance_writesReg rt (t.readReg rt ||| lo.setWidth 32)
    refine ⟨t, _, hlui, exec_ori .., ?_⟩
    rw [hu.readReg_self, ht.readReg_self]
    split
    · rfl
    · exact shiftLeft_or_setWidth hi lo

/-- Settles O36, from the decoder's rows and each meaning as a register write. -/
theorem signedArithmeticNeverTraps : Obligations.SignedArithmeticNeverTraps := by
  refine ⟨fun f w hop => ?_, ?_, ?_, ?_, fun rt rs imm s => ⟨_, exec_addi .., s.writeReg_advance_writesReg ..⟩,
    fun rd rs rt s => ⟨⟨_, exec_add .., s.writeReg_advance_writesReg ..⟩,
      ⟨_, exec_sub .., s.writeReg_advance_writesReg ..⟩, ⟨_, exec_subu .., s.writeReg_advance_writesReg ..⟩⟩⟩
  · simp only [decode, hop]
  all_goals
    intro f w hop hfn
    simp only [decode_of_op_zero f hop, decodeSpecial, hfn]

/-- Settles O32, from the decoder's rows and each meaning as a register write. -/
theorem addiuXoriAndAddu : Obligations.AddiuXoriAndAddu := by
  refine ⟨fun f w hop => ?_, fun f w hop => ?_, fun f w hop hfn => ?_,
    fun rt rs imm s => ⟨⟨_, exec_addiu .., s.writeReg_advance_writesReg ..⟩,
      ⟨_, exec_xori .., s.writeReg_advance_writesReg ..⟩⟩,
    fun rd rs rt s => ⟨_, exec_addu .., s.writeReg_advance_writesReg ..⟩⟩
  · simp only [decode, hop]
  · simp only [decode, hop]
  · simp only [decode_of_op_zero f hop, decodeSpecial, hfn]

end Sys2Proof.Machine
end

section
/-! SUPPORT. Proofs of the statements on shifts, logic and comparisons (spec/44_alu.md §1, §3, §4): the shift amount modulo 32,
the comparisons as written words, the funct of sltu, and the one way in which these instructions complete. -/

namespace Sys2Proof.Machine

/-! ### Amounts and conditions (R125, R294, R295) -/

/-- A mask of five ones is the remainder by 32 (R125). -/
theorem State.shiftAmount_eq_mod (s : State) (rs : RegIdx) : s.shiftAmount rs = (s.readReg rs).toNat % 32 := by
  rw [State.shiftAmount, BitVec.toNat_and]
  exact Nat.and_two_pow_sub_one_eq_mod _ 5

section
variable (a b : Word)

theorem boolWord_signedLess : boolWord (signedLess a b) = if a.toInt < b.toInt then 1#32 else 0#32 := by
  simp only [boolWord, signedLess, decide_eq_true_eq]

theorem boolWord_unsignedLess : boolWord (unsignedLess a b) = if a.toNat < b.toNat then 1#32 else 0#32 := by
  simp only [boolWord, unsignedLess, decide_eq_true_eq]

end

/-! ### The funct of sltu (R130) -/

section
variable {f g : SltuFunct} {w : Word}

theorem decode_of_sltuFunct (hop : opField w = 0#6) (hfn : functField w = f.code) :
    decode f w = .ok (.sltu (rdField w) (rsField w) (rtField w)) := by
  rw [decode_of_op_zero f hop, decodeSpecial_of_sltu hfn]

/-- The value of SLTU_FUNCT that was not chosen is a dash of the SPECIAL map. -/
theorem decode_of_other_sltuFunct (hop : opField w = 0#6) (hfn : functField w = g.code) (hne : g ≠ f) :
    decode f w = .error (.unknownFunct g.code) := by
  rw [decode_of_op_zero f hop]
  match f, g, hfn, hne with
  | .f29, .f2B, hfn, _ | .f2B, .f29, hfn, _ => simp [decodeSpecial, hfn, SltuFunct.code]

end

/-! ### Completion -/

/-- An instruction whose meaning ends in `finishAlu` completes, writes its value to rd and advances. -/
theorem exec_completes_of_finishAlu {i : Instr} {s : State} {rd : RegIdx} {v : Word}
    (h : exec i s = .next (s.finishAlu rd v)) : ∃ t, exec i s = .next t ∧ WritesReg s t rd v (s.pc + 4#32) :=
  ⟨_, h, s.writeReg_advance_writesReg rd v⟩

/-! ### The statements -/

/-- Settles O35: the amount that the meanings take is x[rs] modulo 32. -/
theorem variableShiftsUseFiveBits : Obligations.VariableShiftsUseFiveBits := by
  refine ⟨?_, ?_, ?_, fun rd rt rs s => ?meaning⟩
  case meaning =>
    rw [← s.shiftAmount_eq_mod rs]
    exact ⟨exec_completes_of_finishAlu rfl, exec_completes_of_finishAlu rfl, exec_completes_of_finishAlu rfl⟩
  all_goals
    intro f w hop hfn
    simp only [decode_of_op_zero f hop, decodeSpecial, hfn]

/-- Settles O34, from the decoder's rows; each meaning is the shift that its rule names. -/
theorem constantShifts : Obligations.ConstantShifts := by
  refine ⟨?_, ?_, ?_, fun rd rt shamt s =>
    ⟨exec_completes_of_finishAlu rfl, exec_completes_of_finishAlu rfl, exec_completes_of_finishAlu rfl⟩⟩
  all_goals
    intro f w hop hfn
    simp only [decode_of_op_zero f hop, decodeSpecial, hfn]

/-- Settles O37, from the decoder's rows; the word that slt writes is that of the signed comparison. -/
theorem logicAndSignedComparison : Obligations.LogicAndSignedComparison := by
  refine ⟨?_, ?_, ?_, ?_, ?_, fun rd rs rt s => ?meaning⟩
  case meaning =>
    rw [← boolWord_signedLess]
    exact ⟨exec_completes_of_finishAlu rfl, exec_completes_of_finishAlu rfl, exec_completes_of_finishAlu rfl,
      exec_completes_of_finishAlu rfl, exec_completes_of_finishAlu rfl⟩
  all_goals
    intro f w hop hfn
    simp only [decode_of_op_zero f hop, decodeSpecial, hfn]

/-- Settles O38: each value of SLTU_FUNCT is sltu under itself and a dash under the other. -/
theorem sltuComparesUnsignedAtItsFunct : Obligations.SltuComparesUnsignedAtItsFunct := by
  refine ⟨fun w hop hfn => ⟨decode_of_sltuFunct hop hfn, ?_⟩, fun w hop hfn => ⟨decode_of_sltuFunct hop hfn, ?_⟩,
    fun rd rs rt s => ?_⟩
  · exact decode_of_other_sltuFunct (g := .f29) hop hfn (by decide)
  · exact decode_of_other_sltuFunct (g := .f2B) hop hfn (by decide)
  · rw [← boolWord_unsignedLess]
    exact exec_completes_of_finishAlu rfl

end Sys2Proof.Machine
end

section
/-! SUPPORT. Proofs of the statements on multiply, divide, HI and LO (spec/45_muldiv.md): the one frame in which every write of
HI and LO ends, products that fit 64 bits, the signed quotient and remainder as integers. -/

namespace Sys2Proof.Machine

/-! ### The frame -/

theorem State.finishHiLo_writesHiLo (s : State) (hi lo : Word) : WritesHiLo s (s.finishHiLo hi lo) hi lo :=
  ⟨rfl, rfl, fun _ => rfl, rfl, ⟨rfl, fun _ => rfl⟩, rfl, rfl, rfl, rfl, rfl⟩

/-! ### Products (R320, R321) -/

/-- The halves that a product leaves in HI and LO are the product. -/
theorem State.finishProduct_hi_append_lo (s : State) (p : DWord) : (s.finishProduct p).hi ++ (s.finishProduct p).lo = p :=
  BitVec.extractLsb'_append_extractLsb'

section
variable (a b : Word)

/-- A signed product is between -2^62 and 2^62, so 64 bits hold it. -/
theorem toInt_ofInt_toInt_mul : (BitVec.ofInt 64 (a.toInt * b.toInt)).toInt = a.toInt * b.toInt := by
  have hlo := BitVec.le_toInt_mul_toInt (x := a) (y := b)
  have hhi := BitVec.toInt_mul_toInt_le (x := a) (y := b)
  exact BitVec.toInt_ofInt_eq_self (by decide) (by omega) (by omega)

/-- An unsigned product is below 2^64. -/
theorem toNat_ofNat_toNat_mul : (BitVec.ofNat 64 (a.toNat * b.toNat)).toNat = a.toNat * b.toNat := by
  rw [BitVec.toNat_ofNat]
  exact Nat.mod_eq_of_lt BitVec.toNat_mul_toNat_lt

/-! ### Signed quotient and remainder (R322, R329) -/

theorem signedQuotient_mul_add_signedRemainder : a.toInt = signedQuotient a b * b.toInt + signedRemainder a b :=
  (add_sub_cancel ..).symm

/-- The remainder is that of the division rounded toward zero (D6). -/
theorem signedRemainder_eq_tmod : signedRemainder a b = a.toInt.tmod b.toInt := by
  rw [Int.tmod_def, signedRemainder, signedQuotient, Int.mul_comm]

theorem pos_of_signedRemainder_pos (h : 0 < signedRemainder a b) : 0 < a.toInt := by
  by_contra hneg
  have := Int.tmod_nonneg b.toInt (a := -a.toInt) (by omega)
  rw [Int.neg_tmod, ← signedRemainder_eq_tmod] at this
  omega

theorem neg_of_signedRemainder_neg (h : signedRemainder a b < 0) : a.toInt < 0 := by
  by_contra hpos
  have := Int.tmod_nonneg b.toInt (a := a.toInt) (by omega)
  rw [← signedRemainder_eq_tmod] at this
  omega

/-- HI holds the remainder exactly: it is the library's signed remainder of words. -/
theorem toInt_ofInt_signedRemainder : (BitVec.ofInt 32 (signedRemainder a b)).toInt = signedRemainder a b := by
  rw [signedRemainder_eq_tmod, ← BitVec.toInt_srem, BitVec.ofInt_toInt]

end

theorem natAbs_signedRemainder_lt (a : Word) {b : Word} (h : b ≠ 0#32) :
    (signedRemainder a b).natAbs < b.toInt.natAbs := by
  have hb : b.toInt ≠ 0 := fun h0 => h (BitVec.eq_of_toInt_eq h0)
  rw [signedRemainder_eq_tmod, Int.natAbs_tmod]
  exact Nat.mod_lt _ (Int.natAbs_pos.2 hb)

/-- LO holds the quotient exactly but for -2^31 / -1 (D7): it is the library's signed quotient of words. -/
theorem toInt_ofInt_signedQuotient {a b : Word} (h : ¬ (a = 0x80000000#32 ∧ b = 0xFFFFFFFF#32)) :
    (BitVec.ofInt 32 (signedQuotient a b)).toInt = signedQuotient a b := by
  rw [signedQuotient, ← BitVec.toInt_sdiv_of_ne_or_ne a b (not_and_or.1 h), BitVec.ofInt_toInt]

/-! ### The divisions as the updates they are (R322, R323, R328) -/

section
variable {s : State} {rt : RegIdx} (rs : RegIdx)

theorem exec_div_of_ne (h : s.readReg rt ≠ 0#32) : exec (.div rs rt) s =
    .next (s.finishHiLo (BitVec.ofInt 32 (signedRemainder (s.readReg rs) (s.readReg rt)))
      (BitVec.ofInt 32 (signedQuotient (s.readReg rs) (s.readReg rt)))) := by
  simp only [exec, execDiv, if_neg h]

theorem exec_divu_of_ne (h : s.readReg rt ≠ 0#32) : exec (.divu rs rt) s =
    .next (s.finishHiLo (s.readReg rs % s.readReg rt) (s.readReg rs / s.readReg rt)) := by
  simp only [exec, execDivu, if_neg h, BitVec.umod_def, BitVec.udiv_def]

theorem exec_div_of_eq_zero (h : s.readReg rt = 0#32) : exec (.div rs rt) s = .next s.finishDivideByZero := by
  simp only [exec, execDiv, if_pos h]

theorem exec_divu_of_eq_zero (h : s.readReg rt = 0#32) : exec (.divu rs rt) s = .next s.finishDivideByZero := by
  simp only [exec, execDivu, if_pos h]

end

/-! ### The statements -/

/-- Settles O39: HI and LO put together are a product that 64 bits hold. -/
theorem multiplyGivesTheFullProduct : Obligations.MultiplyGivesTheFullProduct := by
  refine ⟨?_, ?_, fun rs rt s =>
    ⟨⟨_, rfl, s.finishHiLo_writesHiLo _ _, ?signed⟩, ⟨_, rfl, s.finishHiLo_writesHiLo _ _, ?unsigned⟩⟩⟩
  case signed => rw [State.finishProduct_hi_append_lo, toInt_ofInt_toInt_mul]
  case unsigned => rw [State.finishProduct_hi_append_lo, toNat_ofNat_toNat_mul]
  all_goals
    intro f w hop hfn
    simp only [decode_of_op_zero f hop, decodeSpecial, hfn]

/-- Settles O40: q and r are the model's quotient and remainder; in the one corner the words are computed. -/
theorem signedDivideTruncatesTowardZero : Obligations.SignedDivideTruncatesTowardZero := by
  refine ⟨fun f w hop hfn => ?_, fun rs rt s hb => ⟨_, _, _, exec_div_of_ne rs hb, s.finishHiLo_writesHiLo _ _,
    signedQuotient_mul_add_signedRemainder .., natAbs_signedRemainder_lt _ hb, pos_of_signedRemainder_pos _ _,
    neg_of_signedRemainder_neg _ _, toInt_ofInt_signedRemainder .., ?corner, toInt_ofInt_signedQuotient⟩⟩
  case corner =>
    rintro ⟨ha, hb⟩
    rw [ha, hb]
    exact ⟨rfl, rfl⟩
  · simp only [decode_of_op_zero f hop, decodeSpecial, hfn]

/-- Settles O41: LO and HI are the quotient and the remainder of words, whose values are those of natural numbers. -/
theorem unsignedDivideGivesQuotientAndRemainder : Obligations.UnsignedDivideGivesQuotientAndRemainder := by
  refine ⟨fun f w hop hfn => ?_, fun rs rt s hb => ⟨_, exec_divu_of_ne rs hb, s.finishHiLo_writesHiLo _ _, ?_, ?_⟩⟩
  · simp only [decode_of_op_zero f hop, decodeSpecial, hfn]
  · exact (Nat.div_add_mod' ..).symm
  · exact BitVec.umod_lt _ ((BitVec.pos_iff_ne_zero _).2 hb)

/-- Settles O42: both divisions end in the same two draws. -/
theorem divideByZeroCompletesWithTwoDraws : Obligations.DivideByZeroCompletesWithTwoDraws := by
  intro rs rt s i hb hi
  have hexec : exec i s = .next s.finishDivideByZero := by
    obtain rfl | rfl := hi
    · exact exec_div_of_eq_zero rs hb
    · exact exec_divu_of_eq_zero rs hb
  exact ⟨_, hexec, rfl, rfl, rfl, fun _ => rfl, ⟨rfl, fun _ => rfl⟩, rfl, rfl, rfl, rfl, rfl⟩

/-- Settles O43, from the decoder's rows; a move into HI or LO writes the other as it was. -/
theorem movesToAndFromHiLo : Obligations.MovesToAndFromHiLo := by
  refine ⟨?_, ?_, ?_, ?_, fun r s => ⟨⟨_, rfl, s.writeReg_advance_writesReg ..⟩, ⟨_, rfl, s.writeReg_advance_writesReg ..⟩,
    ⟨_, rfl, s.finishHiLo_writesHiLo _ s.lo⟩, ⟨_, rfl, s.finishHiLo_writesHiLo s.hi _⟩⟩⟩
  all_goals
    intro f w hop hfn
    simp only [decode_of_op_zero f hop, decodeSpecial, hfn]

end Sys2Proof.Machine
end

section
/-! SUPPORT. Proofs of the statements on `syscall` (spec/46_system.md): what the handler's edits can and cannot reach, the step
that has no next state, the two outcomes of a handler. -/

namespace Sys2Proof.Machine

/-! ### What holds along a list of edits -/

section
variable {P : State → Prop} {edits : List HandlerEdit}

/-- What every edit keeps holds after them all. -/
theorem State.applyEdits_induction {s : State} (hs : P s) (hkeep : ∀ e ∈ edits, ∀ u, P u → P (u.applyEdit e)) :
    P (s.applyEdits edits) := by
  induction edits generalizing s with
  | nil => exact hs
  | cons e es ih =>
    have he : P (s.applyEdit e) := hkeep e List.mem_cons_self s hs
    exact ih he fun e' he' => hkeep e' (List.mem_cons_of_mem _ he')

/-- What one edit brings about and every edit keeps holds after them all. -/
theorem State.applyEdits_of_mem (s : State) {e : HandlerEdit} (he : e ∈ edits) (hset : ∀ u : State, P (u.applyEdit e))
    (hkeep : ∀ e ∈ edits, ∀ u, P u → P (u.applyEdit e)) : P (s.applyEdits edits) := by
  obtain ⟨before, after, rfl⟩ := List.append_of_mem he
  rw [State.applyEdits_append, State.applyEdits]
  exact State.applyEdits_induction (hset _) fun e' he' =>
    hkeep e' (List.mem_append_right _ (List.mem_cons_of_mem _ he'))

end

/-! ### The bytes that edits reach (R340, R54) -/

theorem State.applyEdit_mem_size (s : State) (e : HandlerEdit) : (s.applyEdit e).mem.size = s.mem.size := by
  obtain ⟨hsize, -⟩ := s.applyEdit_keeps e
  exact hsize

/-- An edit of a byte writes it if it is below MEM_SIZE (R340; log 7). -/
theorem State.readByte_applyEdit_byte (s : State) (a : Word) (b : Byte) (k : Nat) :
    (s.applyEdit (.byte a b)).mem.readByte k = if k = a.toNat ∧ k < s.mem.size then b else s.mem.readByte k := by
  rw [State.applyEdit]
  split
  · next ha =>
    rw [State.setMem_mem, Memory.readByte_writeByte]
    exact if_congr ⟨fun hk => ⟨hk, hk ▸ ha⟩, And.left⟩ rfl rfl
  · next ha => exact (if_neg fun ⟨hk, hlt⟩ => ha (hk ▸ hlt)).symm

theorem State.readByte_applyEdit_of_size_le {s : State} {k : Nat} (hk : s.mem.size ≤ k) (e : HandlerEdit) :
    (s.applyEdit e).mem.readByte k = s.mem.readByte k := by
  cases e with
  | byte a b => rw [State.readByte_applyEdit_byte, if_neg fun ⟨_, hlt⟩ => hk.not_gt hlt]
  | _ => simp [State.applyEdit]

/-- No list of edits writes a byte at or above MEM_SIZE. -/
theorem State.readByte_applyEdits_of_size_le {s : State} {k : Nat} (hk : s.mem.size ≤ k) (edits : List HandlerEdit) :
    (s.applyEdits edits).mem.readByte k = s.mem.readByte k := by
  induction edits generalizing s with
  | nil => rfl
  | cons e es ih =>
    have htail := ih (s := s.applyEdit e) (by rwa [State.applyEdit_mem_size])
    exact htail.trans (State.readByte_applyEdit_of_size_le hk e)

/-! ### Edits that lead to a given state (log 7) -/

/-- The edits that write every byte below MEM_SIZE as in `t`. -/
def State.byteEdits (t : State) : List HandlerEdit :=
  (List.range t.mem.size).map fun a => .byte (BitVec.ofNat 32 a) (t.mem.readByte a)

/-- The edits that write every register as in `t`. -/
def State.regEdits (t : State) : List HandlerEdit :=
  (List.finRange 32).map fun i => .reg i (t.readReg i)

/-- The edits that write as in `t` all that a handler can write. -/
def State.editsTo (t : State) : List HandlerEdit :=
  t.byteEdits ++ t.regEdits ++ [.hi t.hi, .lo t.lo, .pc t.pc]

theorem State.mem_regEdits_iff (t : State) (e : HandlerEdit) :
    e ∈ t.regEdits ↔ ∃ i, e = .reg i (t.readReg i) := by
  simp [State.regEdits, eq_comm]

theorem State.mem_byteEdits_iff (t : State) (e : HandlerEdit) :
    e ∈ t.byteEdits ↔ ∃ a < t.mem.size, e = .byte (BitVec.ofNat 32 a) (t.mem.readByte a) := by
  simp [State.byteEdits, eq_comm]

theorem State.applyEdits_regEdits_mem (s t : State) : (s.applyEdits t.regEdits).mem = s.mem := by
  refine State.applyEdits_induction (P := fun u => u.mem = s.mem) rfl fun e he u hu => ?_
  obtain ⟨i, rfl⟩ := (t.mem_regEdits_iff e).1 he
  exact (u.writeReg_mem i _).trans hu

theorem State.applyEdits_regEdits_readReg (s t : State) (k : RegIdx) :
    (s.applyEdits t.regEdits).readReg k = t.readReg k := by
  have hwrite : ∀ (u : State) (i : RegIdx), u.readReg k = t.readReg k ∨ i = k →
      (u.writeReg i (t.readReg i)).readReg k = t.readReg k := by
    intro u i h
    rw [State.readReg_writeReg]
    split
    · next hk => rw [hk, State.readReg_zero]
    · split
      · next hk => rw [hk]
      · next hk => exact h.resolve_right (Ne.symm hk)
  refine State.applyEdits_of_mem (P := fun u => u.readReg k = t.readReg k) s ((t.mem_regEdits_iff _).2 ⟨k, rfl⟩)
    (fun u => hwrite u k (.inr rfl)) fun e he u hu => ?_
  obtain ⟨i, rfl⟩ := (t.mem_regEdits_iff e).1 he
  exact hwrite u i (.inl hu)

theorem State.applyEdits_byteEdits_readByte {s t : State} {k : Nat} (hmax : t.mem.size ≤ maxImageLength)
    (ht : k < t.mem.size) (hs : k < s.mem.size) : (s.applyEdits t.byteEdits).mem.readByte k = t.mem.readByte k := by
  have haddr : ∀ a, a < t.mem.size → (BitVec.ofNat 32 a).toNat = a := fun a ha =>
    Nat.mod_eq_of_lt (ha.trans_le (hmax.trans (by decide)))
  have hwrite : ∀ (u : State) (a : Nat), a < t.mem.size → k < u.mem.size →
      u.mem.readByte k = t.mem.readByte k ∨ k = a →
      (u.applyEdit (.byte (BitVec.ofNat 32 a) (t.mem.readByte a))).mem.readByte k = t.mem.readByte k := by
    intro u a ha hu h
    rw [State.readByte_applyEdit_byte, haddr a ha]
    split
    · next hk => rw [hk.1]
    · next hk => exact h.resolve_right fun hka => hk ⟨hka, hu⟩
  obtain ⟨hsize, -⟩ := s.applyEdits_keeps t.byteEdits
  refine State.applyEdits_of_mem (P := fun u => k < u.mem.size → u.mem.readByte k = t.mem.readByte k) s
    ((t.mem_byteEdits_iff _).2 ⟨k, ht, rfl⟩) (fun u hu => ?_) (fun e he u ih hu => ?_) (hsize ▸ hs)
  · rw [State.applyEdit_mem_size] at hu
    exact hwrite u k ht hu (.inr rfl)
  · obtain ⟨a, ha, rfl⟩ := (t.mem_byteEdits_iff e).1 he
    rw [State.applyEdit_mem_size] at hu
    exact hwrite u a ha hu (.inl (ih hu))

theorem State.applyEdits_editsTo_eq (s t : State) : s.applyEdits t.editsTo =
    ((((s.applyEdits t.byteEdits).applyEdits t.regEdits).setHi t.hi).setLo t.lo).setPc t.pc := by
  simp only [State.editsTo, State.applyEdits_append, State.applyEdits, State.applyEdit]

/-- Equal in every field. -/
theorem State.ext_of_sameParams {s t : State} (hregs : s.regs = t.regs) (hhi : s.hi = t.hi) (hlo : s.lo = t.lo)
    (hpc : s.pc = t.pc) (hmem : s.mem = t.mem) (hstatus : t.status = s.status) (hparams : SameParams s t) : s = t := by
  obtain ⟨hsltu, hhandler, hdraws, hchoices⟩ := hparams
  cases s
  cases t
  simp_all only

/-- The edits to `t` lead there from every state that agrees with it on all that no handler reaches. -/
theorem State.applyEdits_editsTo {s t : State} (hswf : s.mem.wf = true) (htwf : t.mem.wf = true)
    (hsize : t.mem.size = s.mem.size) (hzero : t.regs[0] = s.regs[0]) (hstatus : t.status = s.status)
    (hparams : SameParams s t) : s.applyEdits t.editsTo = t := by
  obtain ⟨hsize', hzero', hstatus', hsltu', hhandler', hdraws', hchoices'⟩ := s.applyEdits_keeps t.editsTo
  obtain ⟨hsltu, hhandler, hdraws, hchoices⟩ := hparams
  have hwf := s.applyEdits_wf t.editsTo hswf
  refine State.ext_of_sameParams (State.regs_ext (hzero'.trans hzero.symm) fun k => ?reg) ?hi ?lo ?pc
    (Memory.ext_of_wf_below hwf htwf (hsize'.trans hsize.symm) fun a ha => ?byte) (hstatus.trans hstatus'.symm)
    ⟨hsltu.trans hsltu'.symm, hhandler.trans hhandler'.symm, hdraws.trans hdraws'.symm, hchoices.trans hchoices'.symm⟩
  case reg => simp [State.applyEdits_editsTo_eq, State.applyEdits_regEdits_readReg]
  case byte =>
    rw [hsize'] at ha
    simp only [State.applyEdits_editsTo_eq, State.setPc_mem, State.setLo_mem, State.setHi_mem,
      State.applyEdits_regEdits_mem]
    exact State.applyEdits_byteEdits_readByte ((Memory.wf_iff _).1 htwf).1 (hsize ▸ ha) ha
  case hi | lo | pc => simp [State.applyEdits_editsTo_eq]

/-! ### The step that has no next state (R340; log 8) -/

theorem exec_syscall_of_outcomes_eq_nil {s : State} (h : s.outcomes = []) (code : BitVec 20) :
    exec (.syscall code) s = .fault .noHandlerOutcome := by
  simp only [exec, execSyscall, s.chosenOutcome_eq_none_iff.2 h]

/-- Outside the instructions' own meanings every step has a next state (R408). -/
theorem step_eq_next_or_exec (s : State) : (∃ t, step s = .next t) ∨
    ∃ w i, s.fetch = some w ∧ decode s.sltuFunct w = .ok i ∧ step s = exec i s := by
  cases hs : s.status with
  | halted r => exact .inl ⟨s, step_of_halted hs⟩
  | running =>
    cases hf : s.fetch with
    | none => exact .inl ⟨s.raiseMemoryFault none s.pc, by simp only [step, State.cycle, hs, State.runCycle, hf]⟩
    | some w =>
      cases hd : decode s.sltuFunct w with
      | error e => exact .inl ⟨_, step_of_decode_error hs hf hd⟩
      | ok i => exact .inr ⟨w, i, rfl, hd, step_of_decode hs hf hd⟩

theorem step_ne_refused (s : State) (r : Refusal) : step s ≠ .refused r := by
  obtain ⟨t, h⟩ | ⟨w, i, -, -, h⟩ := step_eq_next_or_exec s
  · rw [h]
    exact nofun
  · rw [h]
    exact exec_ne_refused i s r

/-- A step is stuck only at a `syscall` whose handler gives no outcome. -/
theorem step_fault {s : State} {r : Fault} (h : step s = .fault r) : r = .noHandlerOutcome ∧
    ∃ w code, s.fetch = some w ∧ decode s.sltuFunct w = .ok (.syscall code) ∧ s.outcomes = [] := by
  obtain ⟨t, ht⟩ | ⟨w, i, hf, hd, he⟩ := step_eq_next_or_exec s
  · cases ht.symm.trans h
  · obtain ⟨hr, hsys, hnone⟩ := exec_fault (he.symm.trans h)
    obtain ⟨code, rfl⟩ := (isSyscall_iff i).1 hsys
    exact ⟨hr, w, code, hf, hd, hnone⟩

/-! ### The outcomes of a handler -/

/-- The count of choices has no part in the handler's edits (log 18). -/
theorem State.countChoice_applyEdits (s : State) (edits : List HandlerEdit) : s.countChoice.applyEdits edits =
    (s.applyEdits edits).setChoices (if 2 ≤ s.outcomes.length then s.choices + 1 else s.choices) :=
  s.applyEdits_setChoices _ edits

theorem exec_syscall_of_continue {s : State} {edits : List HandlerEdit} (h : s.chosenOutcome = some (.continueWith edits))
    (code : BitVec 20) : exec (.syscall code) s = .next ((s.applyEdits edits).setChoices
      (if 2 ≤ s.outcomes.length then s.choices + 1 else s.choices)).advance := by
  rw [exec_syscall_of_chosen h, State.finishSyscall, State.countChoice_applyEdits]

theorem exec_syscall_of_terminate {s : State} {edits : List HandlerEdit} (h : s.chosenOutcome = some (.terminateWith edits))
    (code : BitVec 20) : exec (.syscall code) s = .next (((s.applyEdits edits).setChoices
      (if 2 ≤ s.outcomes.length then s.choices + 1 else s.choices)).raiseTerminated s.pc
        (encode s.sltuFunct (.syscall code))) := by
  rw [exec_syscall_of_chosen h, State.finishSyscall, State.countChoice_applyEdits, State.countChoice_pc]

/-- The default handler is the constant relation `{Continue(s)}` (D15; log 6). -/
theorem State.outcomes_of_default {s : State} (h : s.handler = Config.handler) : s.outcomes = [.continueWith []] := by
  simp only [State.outcomes, h, Config.handler]

/-! ### The statements -/

/-- Settles O48: the edits to the state write all that a handler can write. -/
theorem handlerReachesEveryAllowedState : Obligations.HandlerReachesEveryAllowedState :=
  fun _ _ hs ht hsize hzero hstatus hsltu hhandler hdraws hchoices =>
    ⟨_, State.applyEdits_editsTo hs ht hsize hzero hstatus ⟨hsltu, hhandler, hdraws, hchoices⟩⟩

/-- Settles O49, from what no edit reaches. -/
theorem handlerCannotReachBeyondItsPowers : Obligations.HandlerCannotReachBeyondItsPowers := by
  intro s edits
  obtain ⟨hsize, hzero, hstatus, hparams⟩ := s.applyEdits_keeps edits
  exact ⟨State.readReg_zero _, hzero, hsize, fun a ha => State.readByte_applyEdits_of_size_le ha edits, hstatus, hparams,
    s.applyEdits_wf edits⟩

/-- Settles O47: a step is its instruction's meaning wherever it is no next state, and the one fault is that of `syscall`. -/
theorem onlyAnEmptyOutcomeSetSticks : Obligations.OnlyAnEmptyOutcomeSetSticks :=
  ⟨fun _ _ code hrun hfetch hdecode hnone =>
      (step_of_decode hrun hfetch hdecode).trans (exec_syscall_of_outcomes_eq_nil hnone code),
    fun _ _ => step_fault, step_ne_refused⟩

/-- Settles O44: a single outcome is the one chosen, and it makes no edit. -/
theorem defaultSyscallAdvances : Obligations.DefaultSyscallAdvances := by
  refine ⟨fun f w hop hfn => ?_, fun s => State.outcomes_of_default, fun code s h => ?_⟩
  · simp only [decode_of_op_zero f hop, decodeSpecial, hfn]
  · obtain ⟨hchosen, hcount⟩ := State.chosenOutcome_singleton h
    have hexec := exec_syscall_of_chosen hchosen code
    rw [hcount] at hexec
    exact ⟨_, hexec, s.setPc_writesPc _⟩

/-- Settles O45: after the edits the count of choices is set and the pc advances. -/
theorem continuingSyscallAppliesTheHandlerThenAdvances : Obligations.ContinuingSyscallAppliesTheHandlerThenAdvances := by
  rintro code s s1 edits h rfl
  obtain ⟨-, -, hstatus, hsltu, hhandler, hdraws, -⟩ := s.applyEdits_keeps edits
  exact ⟨_, exec_syscall_of_continue h code, rfl, fun _ => rfl, ⟨rfl, rfl⟩, ⟨rfl, fun _ => rfl⟩, hstatus, hsltu, hhandler,
    hdraws, rfl⟩

/-- Settles O46: after the edits the count of choices and the status are set, and the pc is left. -/
theorem terminatingSyscallHaltsWithoutAdvancing : Obligations.TerminatingSyscallHaltsWithoutAdvancing := by
  rintro code s s1 edits h rfl
  obtain ⟨-, -, -, hsltu, hhandler, hdraws, -⟩ := s.applyEdits_keeps edits
  exact ⟨_, exec_syscall_of_terminate h code, rfl, rfl, fun _ => rfl, ⟨rfl, rfl⟩, ⟨rfl, fun _ => rfl⟩, hsltu, hhandler,
    hdraws, rfl⟩

end Sys2Proof.Machine
end

section
/-! SUPPORT. Proofs of the statements on errors and halting (spec/60_exceptions.md): the words whose instructions can halt, the
two ways in which an instruction halts, the four in which a step does, a fetch out of bounds. -/

namespace Sys2Proof.Machine

/-! ### The word of an instruction that can halt (R127, R400) -/

/-- A load, a store and a `syscall` hold every bit of their word (R127; log 12). -/
theorem ignoredMask_eq_zero {i : Instr} (h : (i.isLoad = true ∨ i.isStore = true) ∨ i.isSyscall = true) :
    ignoredMask i = 0#32 := by
  cases i with
  | lb | lbu | lh | lhu | lw | sb | sh | sw | syscall => rfl
  | _ => simp [Instr.isLoad, Instr.isStore, Instr.isSyscall] at h

/-- Encoding one of these instructions gives back the word that it was decoded from. -/
theorem encode_eq_of_decode {f : SltuFunct} {w : Word} {i : Instr} (hd : decode f w = .ok i)
    (h : (i.isLoad = true ∨ i.isStore = true) ∨ i.isSyscall = true) : encode f i = w := by
  rw [encode_eq_clear_of_decode hd, ignoredMask_eq_zero h, BitVec.not_zero, BitVec.and_allOnes]

/-! ### How an instruction and a step halt (R402, R404, R408) -/

/-- An instruction halts a running machine by a MemoryFault, which writes `status` alone, or by a termination. -/
theorem exec_halted {i : Instr} {s t : State} {r : HaltRecord} (hs : s.status = .running) (h : exec i s = .next t)
    (ht : t.status = .halted r) :
    ((i.isLoad = true ∨ i.isStore = true) ∧ t = s.setStatus (.halted r) ∧
      ∃ a, r = ⟨.memoryFault, s.pc, some (encode s.sltuFunct i), some a⟩) ∨
    (i.isSyscall = true ∧ r = ⟨.terminated, s.pc, some (encode s.sltuFunct i), none⟩) := by
  cases exec_effect h with
  | writesReg v pc => simp [hs] at ht
  | writesHiLo | writesMem => cases hs.symm.trans ht
  | faults a hi =>
    obtain rfl := Status.halted.inj ht
    exact .inl ⟨hi, s.raiseMemoryFault_eq .., a, rfl⟩
  | asksHandler hsys => exact .inr ⟨hsys, State.finishSyscall_halted (s := s.countChoice) hs ht⟩

/-- The four ways in which a step halts a running machine: at the fetch or, with the fetched word, by a DecodeError, a fault
of the data access or a termination. All but the last write `status` alone. -/
theorem step_halted {s t : State} {r : HaltRecord} (hs : s.status = .running) (h : step s = .next t)
    (ht : t.status = .halted r) :
    (s.fetch = none ∧ t = s.setStatus (.halted r) ∧ r = ⟨.memoryFault, s.pc, none, some s.pc⟩) ∨
    ∃ w, s.fetch = some w ∧
      ((t = s.setStatus (.halted r) ∧ r = ⟨.decodeError, s.pc, some w, none⟩) ∨
       (t = s.setStatus (.halted r) ∧ ∃ a, r = ⟨.memoryFault, s.pc, some w, some a⟩) ∨
       r = ⟨.terminated, s.pc, some w, none⟩) := by
  obtain ⟨r', hh, -⟩ | ⟨-, hf, rfl⟩ | ⟨w, e, -, hf, -, rfl⟩ | ⟨w, i, -, hf, hd, he⟩ := step_cases h
  · cases hs.symm.trans hh
  · obtain rfl := Status.halted.inj ht
    exact .inl ⟨hf, s.raiseMemoryFault_eq .., rfl⟩
  · obtain rfl := Status.halted.inj ht
    exact .inr ⟨w, hf, .inl ⟨s.raiseDecodeError_eq w, rfl⟩⟩
  · obtain ⟨hi, hstatus, hfault⟩ | ⟨hsys, hterm⟩ := exec_halted hs he ht
    · rw [encode_eq_of_decode hd (.inl hi)] at hfault
      exact .inr ⟨w, hf, .inr (.inl ⟨hstatus, hfault⟩)⟩
    · rw [encode_eq_of_decode hd (.inr hsys)] at hterm
      exact .inr ⟨w, hf, .inr (.inr hterm)⟩

/-! ### A fetch out of bounds (R402, R408) -/

theorem State.fetch_eq_none_iff (s : State) : s.fetch = none ↔ s.mem.size ≤ s.pc.toNat + 3 :=
  Memory.read_eq_none_iff s.mem s.pc .word

/-- The fetch is the first check of a step. -/
theorem step_of_fetch_eq_none {s : State} (hr : s.status = .running) (hf : s.fetch = none) :
    step s = .next (s.raiseMemoryFault none s.pc) := by
  simp only [step, State.cycle, hr, State.runCycle, hf]

/-- A running machine whose fetch is out of bounds halts at its pc, and `status` alone changes. -/
theorem step_haltsWith_of_size_le {s : State} (hr : s.status = .running) (hb : s.mem.size ≤ s.pc.toNat + 3) :
    ∃ t, step s = .next t ∧ HaltsWith s t ⟨.memoryFault, s.pc, none, some s.pc⟩ :=
  ⟨_, step_of_fetch_eq_none hr (s.fetch_eq_none_iff.2 hb), s.raiseMemoryFault_haltsWith none s.pc⟩

/-! ### The statements -/

/-- Settles O6: a step and both runs leave a halted machine as it is. -/
theorem haltedMachineNeverChanges : Obligations.HaltedMachineNeverChanges :=
  fun _ _ n h => ⟨step_of_halted h, run_of_halted h n, coreRun_of_halted h n⟩

/-- Settles O57, from the kinds with which an instruction halts. -/
theorem onlyLoadsStoresAndSyscallHalt : Obligations.OnlyLoadsStoresAndSyscallHalt := fun _ _ _ _ => exec_halted_kind

/-- Settles O58: each way to halt but a termination is a write of `status`. -/
theorem errorsArePrecise : Obligations.ErrorsArePrecise := by
  intro s t r hs h ht hk
  obtain ⟨-, hstatus, -⟩ | ⟨w, -, ⟨hstatus, -⟩ | ⟨hstatus, -⟩ | rfl⟩ := step_halted hs h ht
  · exact hstatus
  · exact hstatus
  · exact hstatus
  · exact absurd rfl hk

/-- Settles O59: the record of each way to halt, of which the fault of the fetch alone has no word. -/
theorem haltRecordNamesPcWordAndAddress : Obligations.HaltRecordNamesPcWordAndAddress := by
  intro s t r hs h ht
  obtain ⟨hf, -, rfl⟩ | ⟨w, hf, ⟨-, rfl⟩ | ⟨-, a, rfl⟩ | rfl⟩ := step_halted hs h ht
  · exact ⟨rfl, hf.symm, by simp, fun _ => rfl⟩
  all_goals exact ⟨rfl, hf.symm, by simp, by simp [hf]⟩

/-- Settles O4: the constructed machine has MEM_SIZE 0, which no fetch is below. -/
theorem fetchOutOfBoundsHaltsBeforeDecoding : Obligations.FetchOutOfBoundsHaltsBeforeDecoding :=
  ⟨fun _ => step_haltsWith_of_size_le, fun e => step_haltsWith_of_size_le (s := State.new e) rfl (Nat.zero_le _)⟩

end Sys2Proof.Machine
end

section
/-! SUPPORT. Proofs of the statements on construction and `load` (spec/70_reset_and_hazards.md §1), and of the spec's example
words as the encodings of what they stand for. -/

namespace Sys2Proof

/-- A word that is an instruction's encoding decodes to it. -/
theorem decode_of_encode_eq {f : SltuFunct} {i : Instr} {w : Word} (h : encode f i = w) : decode f w = .ok i :=
  h ▸ decode_encode f i

end Sys2Proof

namespace Sys2Proof.Machine

/-! ### Loading an image (R451, R406) -/

/-- `load` fails exactly for an image that is too long (log 17). -/
theorem State.load_eq_error_iff (s : State) (image : List Byte) (e : LoadError) :
    s.load image = .error e ↔ maxImageLength < image.length := by
  by_cases h : image.length ≤ maxImageLength <;> simp [State.load, imageWellFormed, h, Nat.lt_of_not_le]

/-- Below MEM_SIZE a loaded memory is the image, byte for byte. -/
theorem Memory.readByte_ofImage_of_lt {image : List Byte} {i : Nat} (h : i < image.length) :
    (Memory.ofImage image).readByte i = image[i] :=
  (Memory.readByte_ofImage image i).trans (List.getD_eq_getElem _ _ h)

/-! ### The statements -/

/-- Settles O2: a load is a write of MEM alone, or fails. -/
theorem loadFillsMemoryOrFailsForLength : Obligations.LoadFillsMemoryOrFailsForLength := by
  refine fun s image => ⟨fun hlen => ?_, (s.load_eq_error_iff image _).2⟩
  exact ⟨s.setMem (Memory.ofImage image), (State.load_eq_ok_iff ..).2 ⟨hlen, rfl⟩, rfl,
    fun _ => Memory.readByte_ofImage_of_lt, fun _ => rfl, ⟨rfl, rfl⟩, rfl, rfl, rfl, rfl, rfl, rfl⟩

/-- Settles O1: the registers read as zero, and every other component is what `new` sets. -/
theorem constructionLeavesTheSpecifiedState : Obligations.ConstructionLeavesTheSpecifiedState :=
  fun e => ⟨State.new_readReg e, rfl, rfl, rfl, rfl, rfl, rfl⟩

/-- Settles O50: the reset state is a constructed one. -/
theorem constructionAndLoadMeetTheInvariant : Obligations.ConstructionAndLoadMeetTheInvariant :=
  ⟨fun e => ⟨State.new_inv e, rfl, rfl⟩, rfl, State.new_inv Config.entryPc, fun _ _ _ => State.load_inv⟩

/-- Settles O19: each word is the encoding of its instruction. -/
theorem exampleWordsDecode : Obligations.ExampleWordsDecode := by
  and_intros <;> exact decode_of_encode_eq rfl

end Sys2Proof.Machine
end
